-- ==== Sys2Proof/Word.lean ====
section
/-! DEFINITION. The widths of 00_scope.md R6 and the word types they give (R7). `delta%` puts a parameter's value into a
type, so that the types are `BitVec 32` and `Fin 16` to every lemma about them. -/

namespace Sys2Proof

/-- Register width in bits (R6, source). -/
def Config.XLEN : Nat := 32
/-- Number of registers (R6, source). -/
def Config.NREGS : Nat := 16
/-- Address and program-counter width in bits (R6, source). -/
def Config.ADDR_WIDTH : Nat := 32

/-- A register value or the value of a 32-bit field (R7). -/
abbrev Word := BitVec (delta% Config.XLEN)

/-- A unified address or program-counter value (R7). The same type as `Word`, since registers and fields hold addresses. -/
abbrev Addr := BitVec (delta% Config.ADDR_WIDTH)

/-- A byte of memory, an opcode byte or a size-class byte. -/
abbrev Byte := BitVec 8

/-- The low byte of a field that an opcode reads as a register (10_state.md R11). Values 16 to 255 name no register. -/
abbrev RegField := BitVec 8

/-- The index of a register of the register file, 0 to 15 (10_state.md R10). -/
abbrev RegIdx := Fin (delta% Config.NREGS)

/-- The contents of the register file (10_state.md R10). -/
abbrev RegFile := Vector Word (delta% Config.NREGS)

/-- The 80-bit number of one record (30_encoding.md R46): byte 0 is bits 79 to 72, byte 9 is bits 7 to 0. -/
abbrev RecordWord := BitVec 80

end Sys2Proof
end

