-- ==== Sys2Proof/Config.lean ====
section
/-! DEFINITION. The implementation parameters of 00_scope.md R6, under exactly the names the rule gives them (the three
widths are in Word.lean). A *source* or *derived* value is the spec's and fixed. A *decision* value is the spec's default
of a parameter that the model takes as an argument (92_eei_decisions.md; notes/assumptions/9.md): those of decoding and
execution are the fields of `Config.Params`, the OPEN ones and `PC_RESET` those of `Config.Open`. `MAX_STEPS` is an
argument of `RunUntilHalt` (Machine/HostInterface.lean). -/

namespace Sys2Proof.Config

/-- Bytes per instruction record (source). -/
def RECORD_SIZE : Nat := 10
/-- Bytes of ROM: 2 MiB (source; binary prefix, notes/assumptions/10.md). -/
def ROMSIZE : Nat := 0x200000
/-- Bytes of RAM: 512 KiB (source; binary prefix, notes/assumptions/10.md). -/
def RAMSIZE : Nat := 0x80000
/-- First invalid address (derived). -/
def MEMSIZE : Nat := ROMSIZE + RAMSIZE
/-- Width of the display in pixels (source). -/
def SCREEN_W : Nat := 320
/-- Height of the display in pixels (source). -/
def SCREEN_H : Nat := 240
/-- Bytes of the display window (derived). -/
def SCREEN_BYTES : Nat := SCREEN_W * SCREEN_H * 3
/-- First address of the display window (derived). -/
def SCREEN_BASE : Nat := ROMSIZE + RAMSIZE - SCREEN_BYTES

/-- Size class byte; for jumps a register target (source). -/
def SC_BYTE : Byte := 0x00
/-- Size class word: default of the parameter (decision D3). -/
def SC_WORD : Byte := 0x01
/-- Size class longword: default of the parameter (decision D3). -/
def SC_LONG : Byte := 0x02
/-- A constant-literal variant that no opcode accepts: default of the parameter (decision D3). -/
def SC_CONST_BYTE : Byte := 0x03
/-- A constant-literal variant that no opcode accepts: default of the parameter (decision D3). -/
def SC_CONST_WORD : Byte := 0x04
/-- For jumps a literal target: default of the parameter (decision D3). -/
def SC_CONST_LONG : Byte := 0x05

/-- The program counter after reset, 0 - 10 mod 2^32: default of the parameter (decision D1). -/
def PC_RESET : Addr := 0xFFFFFFF6

/-- The two settings of `MOVE_ADDRESSING` (decision D9). -/
inductive MoveAddressing where
  /-- The fields of `move` are the addresses. -/
  | direct
  /-- The fields of `move` name registers that hold the addresses. -/
  | registerIndirect
  deriving DecidableEq, Repr

/-- How `move` finds its addresses: default of the parameter (decision D9; notes/assumptions/7.md). -/
def MOVE_ADDRESSING : MoveAddressing := .direct

/-- The parameters of decoding and execution that a model takes as arguments (92_eei_decisions.md D3 and D9,
93_implementation_defined.md I9 and I15), each with the spec's default. `SC_BYTE` is the source's and no parameter. -/
structure Params where
  SC_WORD : Byte := Config.SC_WORD
  SC_LONG : Byte := Config.SC_LONG
  SC_CONST_BYTE : Byte := Config.SC_CONST_BYTE
  SC_CONST_WORD : Byte := Config.SC_CONST_WORD
  SC_CONST_LONG : Byte := Config.SC_CONST_LONG
  MOVE_ADDRESSING : MoveAddressing := Config.MOVE_ADDRESSING
  deriving DecidableEq, Repr

/-- The spec's default of every parameter. -/
def defaults : Params := {}

/-- The size-class bytes that have a name, in the order of 30_encoding.md R48. -/
def Params.sizeBytes (p : Params) : List Byte :=
  [Config.SC_BYTE, p.SC_WORD, p.SC_LONG, p.SC_CONST_BYTE, p.SC_CONST_WORD, p.SC_CONST_LONG]

/-- The parameters that reset takes: the three that R6 and R25 mark OPEN, and `PC_RESET`, whose other setting D1 keeps.
`REG_INIT i` is the reset value of register `i`, `RAM_INIT i` that of `ram[i]`, `ROM_FILL i` that of `rom[i]` past the
image. -/
structure Open where
  REG_INIT : RegIdx → Word
  RAM_INIT : Nat → Byte
  ROM_FILL : Nat → Byte
  PC_RESET : Addr := Config.PC_RESET

/-- DESIGN CHOICE, unsafe (notes/assumptions/1.md and 2.md): the values this model names for the OPEN parameters. -/
def named : Open where
  REG_INIT := fun _ => 0
  RAM_INIT := fun _ => 0
  ROM_FILL := fun _ => 0

end Sys2Proof.Config
end

