-- ==== Sys2Proof/Syntax.lean ====
section
/-! DEFINITION. The instructions, one constructor per row of spec/opcode_table.json, each with the operands that
30_encoding.md R51 says the opcode reads. Fields marked `-` there, and the upper 24 bits of a register field, are
ignored (R52), so no constructor carries them. -/

namespace Sys2Proof

/-- The size class of a record (30_encoding.md R48): six named values and every other byte. -/
inductive SizeClass where
  | byte
  | word
  | long
  | constByte
  | constWord
  | constLong
  /-- A size-class byte that R48 gives no name. -/
  | other (sc : Byte)
  deriving DecidableEq, Repr

/-- The target of a jump (44_control_transfer.md R92). -/
inductive Target where
  /-- Size class `SC_BYTE`: the register that holds the target. -/
  | register (r : RegField)
  /-- Size class `SC_CONST_LONG`: the target itself. -/
  | literal (t : Word)
  /-- A size class that jumps do not accept, and the field as it stands (30_encoding.md R50, R57). -/
  | unaccepted (sc : SizeClass) (field : Word)
  deriving DecidableEq, Repr

/-- The 21 instructions (30_encoding.md R54). `rs` is the register field read from the source field, `rd` the one read
from the dest field. -/
inductive Instr where
  | hcf
  | add
  | sub
  | div
  | mul
  | loadi (sc : SizeClass) (lit : Word) (rd : RegField)
  | move (sc : SizeClass) (src dst : Word)
  | load (sc : SizeClass) (addr : Word) (rd : RegField)
  | store (sc : SizeClass) (rs : RegField) (addr : Word)
  | swap (rd : RegField)
  | exchange (rs rd : RegField)
  | not (rs rd : RegField)
  | and (rs rd : RegField)
  | or (rs rd : RegField)
  | xor (rs rd : RegField)
  | jump (t : Target)
  | jeqz (rs : RegField) (t : Target)
  | jnez (rs : RegField) (t : Target)
  | debug (rd : RegField)
  | copy (rs rd : RegField)
  | diagnop
  deriving DecidableEq, Repr

end Sys2Proof
end

