-- ==== Sys2Proof/WellFormed.lean ====
section
/-! DEFINITION. Which terms of `Instr` stand for a record, for each setting of the size-class bytes, and which settings
give every named size class a byte of its own. A size class is written by its name where R48 gives it one,
and an unaccepted jump target has a size class that jumps do not accept. Legal size classes and register indices are
no part of this: an illegal one is a fault of the instruction, not a different decoding (30_encoding.md R57). -/

namespace Sys2Proof

/-- The six named size-class bytes differ, as those of R48 do. -/
def Config.Params.wf (p : Config.Params) : Bool := decide p.sizeBytes.Nodup

/-- `other` holds no byte that has a name. -/
def SizeClass.wf (sc : SizeClass) (p : Config.Params := Config.defaults) : Bool :=
  match sc with
  | .other b => !p.sizeBytes.contains b
  | _ => true

/-- An unaccepted target's size class is one that R50 does not give to jumps. -/
def Target.wf (t : Target) (p : Config.Params := Config.defaults) : Bool :=
  match t with
  | .unaccepted sc _ => sc.wf p && sc != .byte && sc != .constLong
  | .register _ => true
  | .literal _ => true

/-- The term stands for a record. -/
def Instr.wf (i : Instr) (p : Config.Params := Config.defaults) : Bool :=
  match i with
  | .loadi sc _ _ => sc.wf p
  | .move sc _ _ => sc.wf p
  | .load sc _ _ => sc.wf p
  | .store sc _ _ => sc.wf p
  | .jump t => t.wf p
  | .jeqz _ t => t.wf p
  | .jnez _ t => t.wf p
  | .hcf => true
  | .add => true
  | .sub => true
  | .div => true
  | .mul => true
  | .swap _ => true
  | .exchange _ _ => true
  | .not _ _ => true
  | .and _ _ => true
  | .or _ _ => true
  | .xor _ _ => true
  | .debug _ => true
  | .copy _ _ => true
  | .diagnop => true

end Sys2Proof
end

