-- ==== Sys2Proof/Decode.lean ====
section
/-! DEFINITION. Byte order, the record format, the decoder and the encoder (30_encoding.md R45 to R57). The
size-class bytes are parameters (decision D3): every definition that reads one takes them as the argument `p`. -/

namespace Sys2Proof

/-! ### Byte order (20_memory.md R35) -/

/-- The number that a list of bytes stands for, most significant byte first. -/
def beNat (bs : List Byte) : Nat :=
  bs.foldl (fun acc b => acc * 256 + b.toNat) 0

/-- The low `8 * n` bits of a number as `n` bytes, most significant byte first. -/
def beBytes : Nat → Nat → List Byte
  | 0, _ => []
  | n + 1, v => BitVec.ofNat 8 (v / 256 ^ n) :: beBytes n v

/-! ### The record (R45, R46) -/

/-- The four fields of a record. -/
structure Record where
  opcode : Byte
  sc : Byte
  src : Word
  dst : Word
  deriving DecidableEq, Repr

/-- How the decoder splits the 80-bit number of a record (R46). -/
def Record.ofNumber (rec : RecordWord) : Record where
  opcode := rec.extractLsb' 72 8
  sc := rec.extractLsb' 64 8
  src := rec.extractLsb' 32 32
  dst := rec.extractLsb' 0 32

/-- The 80-bit number of a record: its fields in order, the opcode most significant (R46). -/
def Record.number (r : Record) : RecordWord :=
  r.opcode ++ r.sc ++ r.src ++ r.dst

/-! ### Fields -/

/-- `f[7:0]`, the part of a register field that is read (10_state.md R11). -/
def regField (f : Word) : RegField := f.extractLsb' 0 8

/-- The field that names a register: the upper 24 bits, which are ignored, are zero (R61). -/
def regWord (r : RegField) : Word := r.setWidth 32

/-- The size class a size-class byte selects (R48). -/
def SizeClass.ofByte (sc : Byte) (p : Config.Params := Config.defaults) : SizeClass :=
  if sc = Config.SC_BYTE then .byte
  else if sc = p.SC_WORD then .word
  else if sc = p.SC_LONG then .long
  else if sc = p.SC_CONST_BYTE then .constByte
  else if sc = p.SC_CONST_WORD then .constWord
  else if sc = p.SC_CONST_LONG then .constLong
  else .other sc

/-- The byte of a size class (R48). -/
def SizeClass.toByte (sc : SizeClass) (p : Config.Params := Config.defaults) : Byte :=
  match sc with
  | .byte => Config.SC_BYTE
  | .word => p.SC_WORD
  | .long => p.SC_LONG
  | .constByte => p.SC_CONST_BYTE
  | .constWord => p.SC_CONST_WORD
  | .constLong => p.SC_CONST_LONG
  | .other b => b

/-- How a jump reads its target field under a size class (R51, 44_control_transfer.md R92). -/
def Target.ofField (sc : SizeClass) (f : Word) : Target :=
  match sc with
  | .byte => .register (regField f)
  | .constLong => .literal f
  | sc => .unaccepted sc f

/-- The size class of the record of a jump with this target. -/
def Target.sizeClass : Target → SizeClass
  | .register _ => .byte
  | .literal _ => .constLong
  | .unaccepted sc _ => sc

/-- The field that holds this target. -/
def Target.field : Target → Word
  | .register r => regWord r
  | .literal t => t
  | .unaccepted _ f => f

/-! ### The decoder -/

/-- The verdict "unknown opcode", for an opcode byte 0x14 to 0xFE (R55, R57). -/
structure UnknownOpcode where
  opcode : Byte
  deriving DecidableEq, Repr

/-- Why bytes decode to no instruction. -/
inductive DecodeError where
  /-- Fewer than `RECORD_SIZE` bytes were given. A step never meets this: a fetch reads a whole record or faults. -/
  | truncated
  /-- No instruction has this opcode byte. -/
  | unknownOpcode (opcode : Byte)
  deriving DecidableEq, Repr

/-- The instruction of a record: the opcode byte alone selects it (R54), and R51 says how each opcode reads the fields. -/
def Record.decode (r : Record) (p : Config.Params := Config.defaults) :
    Except UnknownOpcode Instr :=
  let rs := regField r.src
  let rd := regField r.dst
  let sc := SizeClass.ofByte r.sc p
  match r.opcode with
  | 0x00 => .ok .hcf
  | 0x01 => .ok .add
  | 0x02 => .ok .sub
  | 0x03 => .ok .div
  | 0x04 => .ok .mul
  | 0x05 => .ok (.loadi sc r.src rd)
  | 0x06 => .ok (.move sc r.src r.dst)
  | 0x07 => .ok (.load sc r.src rd)
  | 0x08 => .ok (.store sc rs r.dst)
  | 0x09 => .ok (.swap rd)
  | 0x0A => .ok (.exchange rs rd)
  | 0x0B => .ok (.not rs rd)
  | 0x0C => .ok (.and rs rd)
  | 0x0D => .ok (.or rs rd)
  | 0x0E => .ok (.xor rs rd)
  | 0x0F => .ok (.jump (.ofField sc r.src))
  | 0x10 => .ok (.jeqz rs (.ofField sc r.dst))
  | 0x11 => .ok (.jnez rs (.ofField sc r.dst))
  | 0x12 => .ok (.debug rd)
  | 0x13 => .ok (.copy rs rd)
  | 0xFF => .ok .diagnop
  | op => .error ⟨op⟩

/-- The decoder on the 80-bit number that a fetch reads. Total (R57). -/
def decodeRecord (rec : RecordWord) (p : Config.Params := Config.defaults) : Except UnknownOpcode Instr :=
  (Record.ofNumber rec).decode p

/-- The decoder on bytes in memory order. It reads the first ten (R47). -/
def decode (bs : List Byte) (p : Config.Params := Config.defaults) : Except DecodeError Instr :=
  if bs.length < Config.RECORD_SIZE then .error .truncated
  else
    match decodeRecord (BitVec.ofNat 80 (beNat (bs.take Config.RECORD_SIZE))) p with
    | .ok i => .ok i
    | .error u => .error (.unknownOpcode u.opcode)

/-! ### The encoder -/

/-- The opcode byte of an instruction (R54). -/
def Instr.opcode : Instr → Byte
  | .hcf => 0x00
  | .add => 0x01
  | .sub => 0x02
  | .div => 0x03
  | .mul => 0x04
  | .loadi _ _ _ => 0x05
  | .move _ _ _ => 0x06
  | .load _ _ _ => 0x07
  | .store _ _ _ => 0x08
  | .swap _ => 0x09
  | .exchange _ _ => 0x0A
  | .not _ _ => 0x0B
  | .and _ _ => 0x0C
  | .or _ _ => 0x0D
  | .xor _ _ => 0x0E
  | .jump _ => 0x0F
  | .jeqz _ _ => 0x10
  | .jnez _ _ => 0x11
  | .debug _ => 0x12
  | .copy _ _ => 0x13
  | .diagnop => 0xFF

/-- The record of an instruction. Ignored parts are zero, as the assembler writes them (R61, decision D22). -/
def Instr.record (i : Instr) (p : Config.Params := Config.defaults) : Record :=
  match i with
  | .loadi sc lit rd => ⟨0x05, sc.toByte p, lit, regWord rd⟩
  | .move sc src dst => ⟨0x06, sc.toByte p, src, dst⟩
  | .load sc addr rd => ⟨0x07, sc.toByte p, addr, regWord rd⟩
  | .store sc rs addr => ⟨0x08, sc.toByte p, regWord rs, addr⟩
  | .swap rd => ⟨0x09, 0, 0, regWord rd⟩
  | .exchange rs rd => ⟨0x0A, 0, regWord rs, regWord rd⟩
  | .not rs rd => ⟨0x0B, 0, regWord rs, regWord rd⟩
  | .and rs rd => ⟨0x0C, 0, regWord rs, regWord rd⟩
  | .or rs rd => ⟨0x0D, 0, regWord rs, regWord rd⟩
  | .xor rs rd => ⟨0x0E, 0, regWord rs, regWord rd⟩
  | .jump t => ⟨0x0F, t.sizeClass.toByte p, t.field, 0⟩
  | .jeqz rs t => ⟨0x10, t.sizeClass.toByte p, regWord rs, t.field⟩
  | .jnez rs t => ⟨0x11, t.sizeClass.toByte p, regWord rs, t.field⟩
  | .debug rd => ⟨0x12, 0, 0, regWord rd⟩
  | .copy rs rd => ⟨0x13, 0, regWord rs, regWord rd⟩
  | .hcf => ⟨0x00, 0, 0, 0⟩
  | .add => ⟨0x01, 0, 0, 0⟩
  | .sub => ⟨0x02, 0, 0, 0⟩
  | .div => ⟨0x03, 0, 0, 0⟩
  | .mul => ⟨0x04, 0, 0, 0⟩
  | .diagnop => ⟨0xFF, 0, 0, 0⟩

/-- The 80-bit number of an instruction's record. -/
def encode (i : Instr) (p : Config.Params := Config.defaults) : RecordWord := (i.record p).number

/-- The ten bytes of an instruction's record, in memory order. -/
def encodeBytes (i : Instr) (p : Config.Params := Config.defaults) : List Byte :=
  beBytes Config.RECORD_SIZE (encode i p).toNat

/-! ### The host's question about one table word -/

/-- The ten bytes of a record given as the opcode table numbers it: one 80-bit number, its bits 79 to 72 the first byte
(notes/assumptions/11.md). Bits at or above `nbits` are zero. -/
def tableWordBytes (nbits w : Nat) : List Byte :=
  beBytes Config.RECORD_SIZE (w % 2 ^ nbits)

/-- The instruction the decoder reads from a table word, none where it rejects it. -/
def decodeTableWord (nbits w : Nat) : Option Instr :=
  match decode (tableWordBytes nbits w) with
  | .ok i => some i
  | .error _ => none

end Sys2Proof
end

