-- ==== Sys2Proof/Machine/State.lean ====
section
/-! DEFINITION. The state of the core (10_state.md), the fault kinds (60_exceptions.md R100) and the state after reset. -/

namespace Sys2Proof.Machine

/-- Byte storage as (unified address, byte) cells in one canonical form (`Memory.wf` in Machine/Memory.lean). -/
abbrev Memory := List Host.Cell

/-- The fault status record (10_state.md R18). `FAULT_KIND` = 0x00 means no fault. -/
structure FaultStatus where
  FAULT_KIND : Byte
  FAULT_PC : Addr
  FAULT_OPCODE : Byte
  FAULT_ADDR : Addr
  deriving DecidableEq, Repr

/-- The fault status after reset: no fault (R25). -/
def FaultStatus.clear : FaultStatus := ⟨0, 0, 0, 0⟩

/-- The state of the core. Its seven components are those of the table that opens 10_state.md. -/
structure State where
  /-- The register file: 16 registers of 32 bits (R10). -/
  x : RegFile
  /-- The program counter: the address of the record being executed, or between steps of the one executed last (R14). -/
  pc : Addr
  /-- Set by `hcf`, cleared by reset (R17). -/
  halted : Bool
  /-- What the first fault recorded (R18). -/
  fault : FaultStatus
  /-- The ROM bytes, at unified addresses below `ROMSIZE` (R22). -/
  rom : Memory
  /-- The RAM bytes, at unified addresses from `ROMSIZE` to below `MEMSIZE` (R22). -/
  ram : Memory
  /-- The debug-output sink, oldest value first (R23). -/
  dbg : List Word
  deriving DecidableEq, Repr

/-- The six fault kinds of 60_exceptions.md R100. The spec describes what each does (R108), so a step TAKES it: the
outcome is a next state with `State.fault` written (`State.raise`), and no step of this model ends in
`Host.Outcome.fault` (notes/assumptions/4.md). Safe: the report stays in the state and the core is inert afterwards. -/
inductive Fault where
  /-- Code 0x01, raised by `store` and `move` with a start address below `ROMSIZE` (R101). Safe, as above. -/
  | memoryProtection
  /-- Code 0x02, raised by the sequencer for opcode 0x14 to 0xFE (R102). Safe, as above. -/
  | unknownOpcode
  /-- Code 0x03, raised by `div` with `x[1] = 0` (R103). Safe, as above. -/
  | arithmetic
  /-- Code 0x04, raised by the fetch, `load`, `store` and `move` past `MEMSIZE` (R104). Safe, as above. -/
  | address
  /-- Code 0x05, raised by an opcode that does not accept the record's size class (R105). Safe, as above. -/
  | illegalSize
  /-- Code 0x06, raised by an opcode that reads a register field of 16 or more (R106). Safe, as above. -/
  | illegalRegister
  deriving DecidableEq, Repr

/-- A fault about to be taken: its kind and the address it records, 0 for the kinds that record none (R100). -/
structure Cause where
  kind : Fault
  addr : Addr := 0
  deriving DecidableEq, Repr

/-- Why the model gives an instruction no meaning. -/
inductive Refusal where
  /-- The instruction has no meaning yet. Raised by no arm of `exec`: all 21 instructions are modelled. Safe. -/
  | notModelled (mnemonic : String)
  deriving DecidableEq, Repr

/-- The core right after reset with no image (R25): `pc` = `PC_RESET`, not halted, no fault, empty sink. The registers are
0 and every memory byte reads 0x00, which R25 leaves OPEN: DESIGN CHOICE, unsafe (notes/assumptions/1.md, 2.md, 3.md).
`resetWith` (Machine/HostInterface.lean) is reset with an image and with any values for the OPEN parameters. -/
def State.reset : State where
  x := Vector.replicate (delta% Config.NREGS) 0
  pc := Config.PC_RESET
  halted := false
  fault := .clear
  rom := []
  ram := []
  dbg := []

end Sys2Proof.Machine
end

