-- ==== Sys2Proof/Machine/Memory.lean ====
section
/-! DEFINITION. One byte store in canonical form: reading, writing and filling it. -/

namespace Sys2Proof.Machine

/-- What an unlisted address reads as. DESIGN CHOICE, unsafe (notes/assumptions/2.md): R25 leaves it OPEN. -/
def Memory.unlisted : Byte := 0x00

/-- The byte at an address. -/
def Memory.read : Memory → Nat → Byte
  | [], _ => Memory.unlisted
  | (b, v) :: rest, a => if b = a then v else Memory.read rest a

/-- No cell for an address. -/
def Memory.drop (m : Memory) (a : Nat) : Memory :=
  m.filter fun c => c.1 != a

/-- A cell put before the first cell with a higher address. -/
def Memory.place : Memory → Nat → Byte → Memory
  | [], a, v => [(a, v)]
  | (b, w) :: rest, a, v =>
    if a < b then (a, v) :: (b, w) :: rest else (b, w) :: Memory.place rest a v

/-- The byte at an address becomes `v`. Writing what an unlisted address reads as removes the cell. -/
def Memory.write (m : Memory) (a : Nat) (v : Byte) : Memory :=
  if v = Memory.unlisted then Memory.drop m a else Memory.place (Memory.drop m a) a v

/-- Consecutive bytes written from an address on. -/
def Memory.writeBytes (m : Memory) (a : Nat) : List Byte → Memory
  | [] => m
  | b :: bs => Memory.writeBytes (Memory.write m a b) (a + 1) bs

/-- The canonical store whose `n` bytes from `lo` on are given by `f`. -/
def Memory.tabulate (f : Nat → Byte) (lo : Nat) : Nat → Memory
  | 0 => []
  | n + 1 =>
    if f lo = Memory.unlisted then Memory.tabulate f (lo + 1) n
    else (lo, f lo) :: Memory.tabulate f (lo + 1) n

/-- The canonical form: addresses strictly rising, and no cell that holds what an unlisted address reads as. -/
abbrev Memory.wf (m : Memory) : Prop :=
  m.Pairwise (fun c d => c.1 < d.1) ∧ ∀ c ∈ m, c.2 ≠ Memory.unlisted

/-- Every cell's address is in the range from `lo` to below `hi`. -/
abbrev Memory.within (lo hi : Nat) (m : Memory) : Prop :=
  ∀ c ∈ m, lo ≤ c.1 ∧ c.1 < hi

end Sys2Proof.Machine
end

