-- ==== Sys2Proof/Machine/Ops.lean ====
section
/-! DEFINITION. The operations every instruction is built from: registers, program counter, memory access, the sink,
halting, and taking a fault. There is no return from a fault (60_exceptions.md R112). -/

namespace Sys2Proof.Machine

open Sys2Proof

/-! ### Registers (10_state.md R8, R10) -/

/-- `x[i]`. -/
def State.reg (s : State) (i : RegIdx) : Word := s.x[i]

/-- `x[i] <- v`. -/
def State.setReg (s : State) (i : RegIdx) (v : Word) : State := { s with x := s.x.set i v }

/-! ### Program counter (10_state.md R14, R15) -/

/-- `RECORD_SIZE` as an address difference. -/
def recordStep : Addr := BitVec.ofNat (delta% Config.ADDR_WIDTH) Config.RECORD_SIZE

/-- `pc <- (pc + 10) mod 2^32`, the first thing a step does. -/
def State.preAdvance (s : State) : State := { s with pc := s.pc + recordStep }

/-- `pc <- (t - 10) mod 2^32`, so that the next pre-advance lands on the target (R15). -/
def State.jumpTo (s : State) (t : Addr) : State := { s with pc := t - recordStep }

/-! ### Memory (20_memory.md R32 to R35) -/

/-- `byte(b)`: each byte is taken from its own region (R32). -/
def State.byte (s : State) (b : Nat) : Byte :=
  if b < Config.ROMSIZE then s.rom.read b else s.ram.read b

/-- The `n` bytes from address `b` on. -/
def State.bytes (s : State) (b : Nat) : Nat → List Byte
  | 0 => []
  | n + 1 => s.byte b :: s.bytes (b + 1) n

/-- The range check of R33 and R34: an exact sum, no wrap. -/
def checkRange (a : Addr) (n : Nat) : Except Cause Unit :=
  if a.toNat + n - 1 ≥ Config.MEMSIZE then .error { kind := .address, addr := a } else .ok ()

/-- The protection check of R34, on the start address alone. -/
def checkWritable (a : Addr) : Except Cause Unit :=
  if a.toNat < Config.ROMSIZE then .error { kind := .memoryProtection, addr := a } else .ok ()

/-- `MemRead(a, n)`: the `n` bytes at `a` as one big-endian number (R33). -/
def State.memRead (s : State) (a : Addr) (n : Nat) : Except Cause Nat := do
  checkRange a n
  .ok (beNat (s.bytes a.toNat n))

/-- `MemWrite(a, n, v)`: the low `8 * n` bits of `v` as `n` bytes, most significant at `a` (R34). Both checks come before
any byte is written. -/
def State.memWrite (s : State) (a : Addr) (n v : Nat) : Except Cause State := do
  checkWritable a
  checkRange a n
  .ok { s with ram := s.ram.writeBytes a.toNat (beBytes n v) }

/-! ### The sink and the halted flag -/

/-- `emit(v)`: one value appended to the debug-output sink (45_diagnostic.md R97). -/
def State.emit (s : State) (v : Word) : State := { s with dbg := s.dbg ++ [v] }

/-- `halt()`: the halted flag set (40_sequencer.md R74). -/
def State.halt (s : State) : State := { s with halted := true }

/-! ### Taking a fault (60_exceptions.md R108) -/

/-- The code written to `FAULT_KIND` (R100). -/
def Fault.code : Fault → Byte
  | .memoryProtection => 0x01
  | .unknownOpcode => 0x02
  | .arithmetic => 0x03
  | .address => 0x04
  | .illegalSize => 0x05
  | .illegalRegister => 0x06

/-- Taking a fault: the four fields of the fault status are written together, with `pc` the faulting record's address,
and nothing else changes (R108). -/
def State.raise (s : State) (c : Cause) (opcode : Byte) : State :=
  { s with fault := ⟨c.kind.code, s.pc, opcode, c.addr⟩ }

/-- The end of an instruction: all of its effects, or the first fault it met, taken in the state it started from
(40_sequencer.md R72, 60_exceptions.md R109). -/
def State.finish (s : State) (i : Instr) (r : Except Cause State) : Host.Outcome State Fault Refusal :=
  match r with
  | .ok t => .next t
  | .error c => .next (s.raise c i.opcode)

end Sys2Proof.Machine
end

