-- ==== Sys2Proof/Machine/Operands.lean ====
section
/-! DEFINITION. The operand forms and their validation (40_sequencer.md R71): register fields, size classes, jump
targets, and the addresses of `move`. Each form answers the fault it raises, so a meaning that asks for its operands
in R71's order (size class, source field, dest field) validates in that order. -/

namespace Sys2Proof.Machine

open Sys2Proof

/-- `reg(f)` of a register field: the register it names, or `IllegalRegisterFault` from 16 on (10_state.md R11). -/
def register (r : RegField) : Except Cause RegIdx :=
  if h : r.toNat < Config.NREGS then .ok ⟨r.toNat, h⟩ else .error { kind := .illegalRegister }

/-- `width(sc)` in bytes, or `IllegalSizeFault` for a size class that has none (30_encoding.md R49, R50). -/
def width (sc : SizeClass) : Except Cause Nat :=
  match sc with
  | .byte => .ok 1
  | .word => .ok 2
  | .long => .ok 4
  | .constByte => .error { kind := .illegalSize }
  | .constWord => .error { kind := .illegalSize }
  | .constLong => .error { kind := .illegalSize }
  | .other _ => .error { kind := .illegalSize }

/-- `mask(sc)` for a width of `n` bytes: `2^(8n) - 1` (30_encoding.md R49). -/
def mask (n : Nat) : Word := BitVec.ofNat (delta% Config.XLEN) (2 ^ (8 * n) - 1)

/-- The size check of a jump: `IllegalSizeFault` unless the size class gives a target (30_encoding.md R50). -/
def accepted (t : Target) : Except Cause Unit :=
  match t with
  | .register _ => .ok ()
  | .literal _ => .ok ()
  | .unaccepted _ _ => .error { kind := .illegalSize }

/-- `Target(sc, f)`: the whole value of the register, or the literal (44_control_transfer.md R92). -/
def State.target (s : State) (t : Target) : Except Cause Addr :=
  match t with
  | .register r => do
    let i ← register r
    .ok (s.reg i)
  | .literal a => .ok a
  | .unaccepted _ _ => .error { kind := .illegalSize }

/-- The source and destination address of `move` under a setting of `MOVE_ADDRESSING` (42_data_movement.md R83). -/
def State.moveAddresses (s : State) (m : Config.MoveAddressing) (src dst : Word) : Except Cause (Addr × Addr) :=
  match m with
  | .direct => .ok (src, dst)
  | .registerIndirect => do
    let i ← register (regField src)
    let j ← register (regField dst)
    .ok (s.reg i, s.reg j)

end Sys2Proof.Machine
end

