-- ==== Sys2Proof/Machine/Flags.lean ====
section
/-! DEFINITION. The status of the core. There are no condition codes, carry, overflow, zero or sign flags (10_state.md
R19): conditional jumps test a register's value, and the only status is the halted flag and the fault record. -/

namespace Sys2Proof.Machine

open Sys2Proof

/-- A halted or faulted core takes no step (40_sequencer.md R68). -/
def State.stopped (s : State) : Bool :=
  s.halted || s.fault.FAULT_KIND != 0x00

/-- The test of the conditional jumps: the value is exactly zero (44_control_transfer.md R94, R95). -/
def isZero (v : Word) : Bool := v == 0

end Sys2Proof.Machine
end

