-- ==== Sys2Proof/Machine/Arithmetic.lean ====
section
/-! DEFINITION. The fixed-register instructions of 41_arithmetic.md: add, sub, div, mul. Unsigned, modulo 2^32 (R76). -/

namespace Sys2Proof.Machine

open Sys2Proof

/-- The register of the first operand (10_state.md R12). -/
def firstOperand : RegIdx := 0
/-- The register of the second operand (10_state.md R12). -/
def secondOperand : RegIdx := 1
/-- The register of the result (10_state.md R12). -/
def resultRegister : RegIdx := 2

/-- `x[2] <- f x[0] x[1]` (R12). -/
def State.arith (s : State) (f : Word → Word → Word) : State :=
  s.setReg resultRegister (f (s.reg firstOperand) (s.reg secondOperand))

/-- `add` (R77). -/
def execAdd (s : State) : Host.Outcome State Fault Refusal :=
  .next (s.arith fun a b => a + b)

/-- `sub` (R78): the first operand minus the second. -/
def execSub (s : State) : Host.Outcome State Fault Refusal :=
  .next (s.arith fun a b => a - b)

/-- `div` (R79): the unsigned quotient, or `ArithmeticFault` when the divisor is zero. -/
def execDiv (s : State) : Host.Outcome State Fault Refusal :=
  s.finish .div
    (if s.reg secondOperand = 0 then .error { kind := .arithmetic } else .ok (s.arith BitVec.udiv))

/-- `mul` (R80): the low 32 bits of the product. -/
def execMul (s : State) : Host.Outcome State Fault Refusal :=
  .next (s.arith fun a b => a * b)

end Sys2Proof.Machine
end

