-- ==== Sys2Proof/Machine/Control.lean ====
section
/-! DEFINITION. The instructions of 44_control_transfer.md: jump, jeqz, jnez. -/

namespace Sys2Proof.Machine

open Sys2Proof

/-- A conditional jump: the operands are validated whether or not it is taken (40_sequencer.md R71), the size class
first, then the condition register, then the target. -/
def State.jumpWhen (s : State) (taken : Word → Bool) (rs : RegField) (t : Target) : Except Cause State := do
  accepted t
  let i ← register rs
  let a ← s.target t
  .ok (if taken (s.reg i) then s.jumpTo a else s)

/-- `jump` (R93). -/
def execJump (t : Target) (s : State) : Host.Outcome State Fault Refusal :=
  s.finish (.jump t) do
    accepted t
    let a ← s.target t
    .ok (s.jumpTo a)

/-- `jeqz` (R94): taken only when the register is exactly zero. -/
def execJeqz (rs : RegField) (t : Target) (s : State) : Host.Outcome State Fault Refusal :=
  s.finish (.jeqz rs t) (s.jumpWhen isZero rs t)

/-- `jnez` (R95): taken for every value but zero. -/
def execJnez (rs : RegField) (t : Target) (s : State) : Host.Outcome State Fault Refusal :=
  s.finish (.jnez rs t) (s.jumpWhen (fun v => !isZero v) rs t)

end Sys2Proof.Machine
end

