-- ==== Sys2Proof/Machine/Diagnostic.lean ====
section
/-! DEFINITION. The instructions of 45_diagnostic.md: debug, diagnop. -/

namespace Sys2Proof.Machine

open Sys2Proof

/-- `debug` (R97): appends the register of the dest field to the sink. -/
def execDebug (rd : RegField) (s : State) : Host.Outcome State Fault Refusal :=
  s.finish (.debug rd) do
    let d ← register rd
    .ok (s.emit (s.reg d))

/-- `diagnop` (R98): no state change beyond the step's pre-advance. -/
def execDiagnop (s : State) : Host.Outcome State Fault Refusal :=
  .next s

end Sys2Proof.Machine
end

