-- ==== Sys2Proof/Machine/Logical.lean ====
section
/-! DEFINITION. The instructions of 43_logical.md: not, and, or, xor. -/

namespace Sys2Proof.Machine

open Sys2Proof

/-- `x[D] <- f x[S] x[D]`, both fields validated (43_logical.md, 40_sequencer.md R71). -/
def State.combine (s : State) (rs rd : RegField) (f : Word → Word → Word) : Except Cause State := do
  let i ← register rs
  let d ← register rd
  .ok (s.setReg d (f (s.reg i) (s.reg d)))

/-- `not` (R88): the source register exclusive-or zero, not a complement (90_conflicts.md C5). -/
def execNot (rs rd : RegField) (s : State) : Host.Outcome State Fault Refusal :=
  s.finish (.not rs rd) (s.combine rs rd fun a _ => a ^^^ 0x00000000)

/-- `and` (R89). -/
def execAnd (rs rd : RegField) (s : State) : Host.Outcome State Fault Refusal :=
  s.finish (.and rs rd) (s.combine rs rd fun a b => a &&& b)

/-- `or` (R90). -/
def execOr (rs rd : RegField) (s : State) : Host.Outcome State Fault Refusal :=
  s.finish (.or rs rd) (s.combine rs rd fun a b => a ||| b)

/-- `xor` (R91). -/
def execXor (rs rd : RegField) (s : State) : Host.Outcome State Fault Refusal :=
  s.finish (.xor rs rd) (s.combine rs rd fun a b => a ^^^ b)

end Sys2Proof.Machine
end

