-- ==== Sys2Proof/Machine/Movement.lean ====
section
/-! DEFINITION. The instructions of 42_data_movement.md: loadi, copy, move, load, store, swap, exchange. -/

namespace Sys2Proof.Machine

open Sys2Proof

/-- `loadi` (R81): the literal masked to the size class's width. -/
def execLoadi (sc : SizeClass) (lit : Word) (rd : RegField) (s : State) : Host.Outcome State Fault Refusal :=
  s.finish (.loadi sc lit rd) do
    let n ← width sc
    let d ← register rd
    .ok (s.setReg d (lit &&& mask n))

/-- `copy` (R82). -/
def execCopy (rs rd : RegField) (s : State) : Host.Outcome State Fault Refusal :=
  s.finish (.copy rs rd) do
    let i ← register rs
    let d ← register rd
    .ok (s.setReg d (s.reg i))

/-- `move` under a setting of `MOVE_ADDRESSING` (R83): protection of the destination, then the read of all source bytes,
then the write. -/
def moveWith (m : Config.MoveAddressing) (sc : SizeClass) (src dst : Word) (s : State) :
    Host.Outcome State Fault Refusal :=
  s.finish (.move sc src dst) do
    let n ← width sc
    let (sa, da) ← s.moveAddresses m src dst
    checkWritable da
    let v ← s.memRead sa n
    s.memWrite da n v

/-- `move` (R83) as the core is configured. -/
def execMove (sc : SizeClass) (src dst : Word) (s : State) : Host.Outcome State Fault Refusal :=
  moveWith Config.MOVE_ADDRESSING sc src dst s

/-- `load` (R84): zero-extended. -/
def execLoad (sc : SizeClass) (addr : Word) (rd : RegField) (s : State) : Host.Outcome State Fault Refusal :=
  s.finish (.load sc addr rd) do
    let n ← width sc
    let d ← register rd
    let v ← s.memRead addr n
    .ok (s.setReg d (BitVec.ofNat (delta% Config.XLEN) v))

/-- `store` (R85): the low-order bytes of the register. -/
def execStore (sc : SizeClass) (rs : RegField) (addr : Word) (s : State) : Host.Outcome State Fault Refusal :=
  s.finish (.store sc rs addr) do
    let n ← width sc
    let i ← register rs
    s.memWrite addr n (s.reg i).toNat

/-- `swap` (R86): the two halves of the register exchanged. -/
def execSwap (rd : RegField) (s : State) : Host.Outcome State Fault Refusal :=
  s.finish (.swap rd) do
    let d ← register rd
    let v := s.reg d
    .ok (s.setReg d (v.extractLsb' 0 16 ++ v.extractLsb' 16 16))

/-- `exchange` (R87): both registers are read before either is written. -/
def execExchange (rs rd : RegField) (s : State) : Host.Outcome State Fault Refusal :=
  s.finish (.exchange rs rd) do
    let i ← register rs
    let d ← register rd
    .ok ((s.setReg i (s.reg d)).setReg d (s.reg i))

end Sys2Proof.Machine
end

