-- ==== Sys2Proof/Machine/Sequencer.lean ====
section
/-! DEFINITION. The instruction of 40_sequencer.md: hcf. -/

namespace Sys2Proof.Machine

open Sys2Proof

/-- `hcf` (40_sequencer.md R74): sets the halted flag. -/
def execHcf (s : State) : Host.Outcome State Fault Refusal :=
  .next s.halt

end Sys2Proof.Machine
end

