-- ==== Sys2Proof/Machine/Dispatch.lean ====
section
/-! DEFINITION. One arm per instruction, in the opcode table's order. -/

namespace Sys2Proof.Machine

open Sys2Proof

-- Validate and Execute of 40_sequencer.md R69, in a state whose pc is the record's address.
def exec (i : Instr) (s : State) : Host.Outcome State Fault Refusal :=
  match i with
  | .hcf => Sys2Proof.Machine.execHcf s
  | .add => Sys2Proof.Machine.execAdd s
  | .sub => Sys2Proof.Machine.execSub s
  | .div => Sys2Proof.Machine.execDiv s
  | .mul => Sys2Proof.Machine.execMul s
  | .loadi sc lit rd => Sys2Proof.Machine.execLoadi sc lit rd s
  | .move sc src dst => Sys2Proof.Machine.execMove sc src dst s
  | .load sc addr rd => Sys2Proof.Machine.execLoad sc addr rd s
  | .store sc rs addr => Sys2Proof.Machine.execStore sc rs addr s
  | .swap rd => Sys2Proof.Machine.execSwap rd s
  | .exchange rs rd => Sys2Proof.Machine.execExchange rs rd s
  | .not rs rd => Sys2Proof.Machine.execNot rs rd s
  | .and rs rd => Sys2Proof.Machine.execAnd rs rd s
  | .or rs rd => Sys2Proof.Machine.execOr rs rd s
  | .xor rs rd => Sys2Proof.Machine.execXor rs rd s
  | .jump t => Sys2Proof.Machine.execJump t s
  | .jeqz rs t => Sys2Proof.Machine.execJeqz rs t s
  | .jnez rs t => Sys2Proof.Machine.execJnez rs t s
  | .debug rd => Sys2Proof.Machine.execDebug rd s
  | .copy rs rd => Sys2Proof.Machine.execCopy rs rd s
  | .diagnop => Sys2Proof.Machine.execDiagnop s

end Sys2Proof.Machine
end

