-- ==== Sys2Proof/Machine/Fetch.lean ====
section
/-! DEFINITION. Fetching and decoding the record at `pc` (40_sequencer.md R69), and placing one there from outside. -/

namespace Sys2Proof.Machine

open Sys2Proof

/-- The fetch of the record at `pc`: `MemRead(pc, 10)` (R69, R43). -/
def State.fetch (s : State) : Except Cause RecordWord := do
  let v ← s.memRead s.pc Config.RECORD_SIZE
  .ok (BitVec.ofNat 80 v)

/-- The instruction at `pc`, or the fault that stops the step before there is one, with the opcode it records: 0x00 for
a fault of the fetch itself (60_exceptions.md R104), the byte for an unknown opcode (R102, 40_sequencer.md R75). -/
def State.fetchInstr (s : State) (p : Config.Params := Config.defaults) : Except (Cause × Byte) Instr :=
  match s.fetch with
  | .error c => .error (c, 0x00)
  | .ok rec =>
    match decodeRecord rec p with
    | .ok i => .ok i
    | .error u => .error ({ kind := .unknownOpcode }, u.opcode)

/-! ### Placing a record, as the host's image load does (notes/assumptions/5.md) -/

/-- One byte placed in its own region, ROM included. No instruction does this. -/
def State.poke (s : State) (a : Nat) (v : Byte) : State :=
  if a < Config.ROMSIZE then { s with rom := s.rom.write a v } else { s with ram := s.ram.write a v }

/-- Consecutive bytes placed from an address on. -/
def State.pokeBytes (s : State) (a : Nat) : List Byte → State
  | [] => s
  | b :: bs => (s.poke a b).pokeBytes (a + 1) bs

/-- The whole record that the next step fetches is inside memory. -/
def State.canFetch (s : State) : Bool :=
  (s.pc + recordStep).toNat + Config.RECORD_SIZE ≤ Config.MEMSIZE

/-- The state with nothing that keeps the next step from fetching: no recorded stop, and `pc` at `PC_RESET` where the
next record would lie outside memory. -/
def State.readyToFetch (s : State) : State :=
  { s with
    halted := false
    fault := .clear
    pc := if s.canFetch then s.pc else Config.PC_RESET }

/-- The ten bytes placed where the next step of a ready state fetches. -/
def State.placeRecord (s : State) (bs : List Byte) : State :=
  s.pokeBytes (s.pc + recordStep).toNat bs

end Sys2Proof.Machine
end

