-- ==== Sys2Proof/Machine/Parameters.lean ====
section
/-! DEFINITION. Execution and one step for every setting of the parameters of 00_scope.md R6 that decisions D3 and D9 of
92_eei_decisions.md leave to an argument. `exec` and `step` are these at the spec's defaults. -/

namespace Sys2Proof.Machine

open Sys2Proof

/-- Validate and Execute of 40_sequencer.md R69 under a setting of the parameters. `MOVE_ADDRESSING` is the only one that
reaches execution, and only `move` reads it (42_data_movement.md R83). -/
def execWith (p : Config.Params) (i : Instr) (s : State) : Host.Outcome State Fault Refusal :=
  match i with
  | .move sc src dst => moveWith p.MOVE_ADDRESSING sc src dst s
  | .hcf => exec .hcf s
  | .add => exec .add s
  | .sub => exec .sub s
  | .div => exec .div s
  | .mul => exec .mul s
  | .loadi sc lit rd => exec (.loadi sc lit rd) s
  | .load sc addr rd => exec (.load sc addr rd) s
  | .store sc rs addr => exec (.store sc rs addr) s
  | .swap rd => exec (.swap rd) s
  | .exchange rs rd => exec (.exchange rs rd) s
  | .not rs rd => exec (.not rs rd) s
  | .and rs rd => exec (.and rs rd) s
  | .or rs rd => exec (.or rs rd) s
  | .xor rs rd => exec (.xor rs rd) s
  | .jump t => exec (.jump t) s
  | .jeqz rs t => exec (.jeqz rs t) s
  | .jnez rs t => exec (.jnez rs t) s
  | .debug rd => exec (.debug rd) s
  | .copy rs rd => exec (.copy rs rd) s
  | .diagnop => exec .diagnop s

/-- One `Step()` (40_sequencer.md R68, R69) whose last phase is `run`. A stopped core is inert (R68). Otherwise the
pre-advance, the fetch and the decode, and then validation and execution in `run`; a fault before there is an instruction
is taken here. -/
def stepRunning (p : Config.Params) (run : Instr → State → Host.Outcome State Fault Refusal) (s : State) :
    Host.Outcome State Fault Refusal :=
  if s.stopped then .next s
  else
    match s.preAdvance.fetchInstr p with
    | .ok i => run i s.preAdvance
    | .error (c, opcode) => .next (s.preAdvance.raise c opcode)

/-- One `Step()` under a setting of the parameters. -/
def stepWith (p : Config.Params) (s : State) : Host.Outcome State Fault Refusal :=
  stepRunning p (execWith p) s

end Sys2Proof.Machine
end

