-- ==== Sys2Proof/Machine/Step.lean ====
section
/-! DEFINITION. One step of the core (40_sequencer.md R68, R69). -/

namespace Sys2Proof.Machine

open Sys2Proof

/-- One `step()` at the spec's default of every parameter. What the step reports to the host is a function of the state
it leaves (`State.result` in Machine/HostInterface.lean). -/
def step (s : State) : Host.Outcome State Fault Refusal :=
  stepRunning Config.defaults exec s

/-- The state with a table word placed where its next step fetches (notes/assumptions/5.md). -/
def State.withFetchWord (s : State) (nbits w : Nat) : State :=
  s.readyToFetch.placeRecord (tableWordBytes nbits w)

end Sys2Proof.Machine
end

