-- ==== Sys2Proof/Machine/HostInterface.lean ====
section
/-! DEFINITION. The host's transactions (70_reset_and_hazards.md R125) and the display window (20_memory.md R29). -/

namespace Sys2Proof.Machine

open Sys2Proof

/-! ### reset -/

/-- `reset(image)` (R121, R122) with any values of the OPEN parameters (R25). An image longer than ROM is refused by the
host and no reset happens: `none`. -/
def resetWith (c : Config.Open) (image : List Byte) : Option State :=
  if image.length ≤ Config.ROMSIZE then
    some
      { x := Vector.ofFn c.REG_INIT
        pc := c.PC_RESET
        halted := false
        fault := .clear
        rom := Memory.tabulate (fun a => image.getD a (c.ROM_FILL a)) 0 Config.ROMSIZE
        ram := Memory.tabulate (fun a => c.RAM_INIT (a - Config.ROMSIZE)) Config.ROMSIZE Config.RAMSIZE
        dbg := [] }
  else none

/-! ### step and run_until_halt -/

/-- What the host gets back from a transaction that steps (R125). -/
inductive Report where
  | stepped
  | halt
  | fault (f : FaultStatus)
  | boundReached
  deriving DecidableEq, Repr

/-- What a step reports: the stop recorded in the state it leaves, else `Stepped` (40_sequencer.md R68, R69). -/
def State.result (s : State) : Report :=
  if s.halted then .halt
  else if s.fault.FAULT_KIND != 0x00 then .fault s.fault
  else .stepped

/-- At most `n` steps, until one leaves a stopped core: the last step's report, or `BoundReached` after `n` steps without
a stop, and the state it leaves. -/
def runFor (n : Nat) (s : State) (p : Config.Params := Config.defaults) : Host.Outcome (Report × State) Fault Refusal :=
  match n with
  | 0 => .next (.boundReached, s)
  | k + 1 =>
    match stepWith p s with
    | .next t => if t.stopped then .next (t.result, t) else runFor k t p
    | .fault r => .fault r
    | .refused r => .refused r

/-- `run_until_halt(MAX_STEPS)` from `s` answers the report `r` and leaves `t` (40_sequencer.md R73). The bound is
optional: with none, the run ends only with a stop, and one that never stops answers nothing. -/
def RunUntilHalt (MAX_STEPS : Option Nat) (s : State) (r : Report) (t : State)
    (p : Config.Params := Config.defaults) : Prop :=
  match MAX_STEPS with
  | some n => runFor n s p = .next (r, t)
  | none => r ≠ .boundReached ∧ ∃ n, runFor n s p = .next (r, t)

/-! ### Reading the state and draining the sink -/

/-- What `read_state()` gives back (R125). -/
structure StateView where
  x : RegFile
  pc : Addr
  halted : Bool
  fault : FaultStatus
  deriving DecidableEq, Repr

/-- `read_state()`. -/
def readState (s : State) : StateView := ⟨s.x, s.pc, s.halted, s.fault⟩

/-- `read_display()`: the bytes of the display window. -/
def readDisplay (s : State) : List Byte := s.bytes Config.SCREEN_BASE Config.SCREEN_BYTES

/-- `drain_debug()`: the values of the sink, oldest first, and the state with an empty sink. -/
def drainDebug (s : State) : List Word × State := (s.dbg, { s with dbg := [] })

/-! ### The display window (20_memory.md R29) -/

/-- The address of the red byte of pixel `(px, py)`; green and blue follow it. -/
def pixelAddress (px py : Nat) : Nat := Config.SCREEN_BASE + 3 * (px + py * Config.SCREEN_W)

/-- Red, green and blue of a pixel. -/
def State.pixel (s : State) (px py : Nat) : Byte × Byte × Byte :=
  (s.byte (pixelAddress px py), s.byte (pixelAddress px py + 1), s.byte (pixelAddress px py + 2))

end Sys2Proof.Machine
end

