-- ==== Sys2Proof/Safety.lean ====
section
/-! DEFINITION. What counts as a safe run, the invariant of the state, and the words the statements use. Nothing here is
used by the machine. -/

namespace Sys2Proof.Machine

open Sys2Proof

/-! ### Runs (70_reset_and_hazards.md R127) -/

/-- The core takes a step: neither halted nor faulted (40_sequencer.md R68). -/
abbrev State.Running (s : State) : Prop := s.halted = false ∧ s.fault.FAULT_KIND = 0x00

/-- The run from `s` ends with `Halt`. -/
def EndsCleanly (s : State) : Prop := ∃ t, RunUntilHalt none s .halt t

/-- The run from `s` ends with a fault. -/
def EndsBadly (s : State) : Prop := ∃ f t, RunUntilHalt none s (.fault f) t

/-- The run from `s` never ends. -/
def Hangs (s : State) : Prop := ∀ r t, ¬ RunUntilHalt none s r t

/-- The run from `s` meets no fault. -/
def Safe (s : State) : Prop := ¬ EndsBadly s

/-! ### The invariant -/

/-- Both stores are canonical and hold cells of their own region only (10_state.md R22). -/
abbrev State.MemoryOk (s : State) : Prop :=
  Memory.wf s.rom ∧ Memory.within 0 Config.ROMSIZE s.rom ∧
  Memory.wf s.ram ∧ Memory.within Config.ROMSIZE Config.MEMSIZE s.ram

/-- The fault record is one that R18 and R100 allow: all zero while there is no fault; else one of the six kinds, with
`FAULT_PC` the program counter, the halted flag clear, and an address only for the two kinds that record one. -/
abbrev State.StatusOk (s : State) : Prop :=
  (s.fault.FAULT_KIND = 0x00 → s.fault = .clear) ∧
  s.fault.FAULT_KIND.toNat ≤ 6 ∧
  (s.fault.FAULT_KIND ≠ 0x00 → s.fault.FAULT_PC = s.pc ∧ s.halted = false) ∧
  (s.fault.FAULT_KIND ≠ 0x01 → s.fault.FAULT_KIND ≠ 0x04 → s.fault.FAULT_ADDR = 0)

/-- The invariant every step keeps. -/
abbrev State.Inv (s : State) : Prop := s.MemoryOk ∧ s.StatusOk

/-! ### Words of the statements -/

/-- The state that 60_exceptions.md R108 prescribes for a fault: the fault record written, nothing else changed. -/
def State.withFault (s : State) (kind opcode : Byte) (addr : Word) : State :=
  { s with fault := { FAULT_KIND := kind, FAULT_PC := s.pc, FAULT_OPCODE := opcode, FAULT_ADDR := addr } }

/-- The size classes that select a width, with the width in bytes (30_encoding.md R49, R50). -/
def sizeWidths : List (SizeClass × Nat) := [(.byte, 1), (.word, 2), (.long, 4)]

/-- The size-class bytes an opcode accepts, for the opcodes that use the size class (30_encoding.md R50). -/
def acceptsSize (r : Record) : Bool :=
  if r.opcode ∈ [0x05#8, 0x06#8, 0x07#8, 0x08#8] then r.sc ∈ [0x00#8, 0x01#8, 0x02#8]
  else if r.opcode ∈ [0x0F#8, 0x10#8, 0x11#8] then r.sc ∈ [0x00#8, 0x05#8]
  else true

/-- The fields that an opcode reads as registers, with `MOVE_ADDRESSING` = `direct` (40_sequencer.md R71). -/
def readAsRegisters (r : Record) : List Word :=
  if r.opcode ∈ [0x05#8, 0x07#8, 0x09#8, 0x12#8] then [r.dst]
  else if r.opcode = 0x08#8 then [r.src]
  else if r.opcode ∈ [0x0A#8, 0x0B#8, 0x0C#8, 0x0D#8, 0x0E#8, 0x13#8] then [r.src, r.dst]
  else if r.opcode = 0x0F#8 then (if r.sc = 0x00#8 then [r.src] else [])
  else if r.opcode ∈ [0x10#8, 0x11#8] then (if r.sc = 0x00#8 then [r.src, r.dst] else [r.src])
  else []

/-- The register an instruction writes, by the table of 10_state.md R13. -/
def writesRegister (i : Instr) (d : RegIdx) : Bool :=
  match i with
  | .add => d == 2
  | .sub => d == 2
  | .div => d == 2
  | .mul => d == 2
  | .loadi _ _ rd => rd.toNat == d.val
  | .load _ _ rd => rd.toNat == d.val
  | .swap rd => rd.toNat == d.val
  | .exchange rs rd => rs.toNat == d.val || rd.toNat == d.val
  | .not _ rd => rd.toNat == d.val
  | .and _ rd => rd.toNat == d.val
  | .or _ rd => rd.toNat == d.val
  | .xor _ rd => rd.toNat == d.val
  | .copy _ rd => rd.toNat == d.val
  | .hcf => false
  | .move _ _ _ => false
  | .store _ _ _ => false
  | .jump _ => false
  | .jeqz _ _ => false
  | .jnez _ _ => false
  | .debug _ => false
  | .diagnop => false

/-- The address an instruction stores to and the size class of the store: the dest field of `store`, and for `move` the
destination address that its meaning computes. -/
def storesTo (i : Instr) (s : State) (m : Config.MoveAddressing := Config.MOVE_ADDRESSING) :
    Option (Word × SizeClass) :=
  match i with
  | .store sc _ addr => some (addr, sc)
  | .move sc src dst =>
    match s.moveAddresses m src dst with
    | .ok (_, da) => some (da, sc)
    | .error _ => none
  | .hcf => none
  | .add => none
  | .sub => none
  | .div => none
  | .mul => none
  | .loadi _ _ _ => none
  | .load _ _ _ => none
  | .swap _ => none
  | .exchange _ _ => none
  | .not _ _ => none
  | .and _ _ => none
  | .or _ _ => none
  | .xor _ _ => none
  | .jump _ => none
  | .jeqz _ _ => none
  | .jnez _ _ => none
  | .debug _ => none
  | .copy _ _ => none
  | .diagnop => none

/-- The address an instruction loads from and the size class of the load: the source field of `load`, and for `move` the
source address that its meaning computes. -/
def loadsFrom (i : Instr) (s : State) (m : Config.MoveAddressing := Config.MOVE_ADDRESSING) :
    Option (Word × SizeClass) :=
  match i with
  | .load sc addr _ => some (addr, sc)
  | .move sc src dst =>
    match s.moveAddresses m src dst with
    | .ok (sa, _) => some (sa, sc)
    | .error _ => none
  | .hcf => none
  | .add => none
  | .sub => none
  | .div => none
  | .mul => none
  | .loadi _ _ _ => none
  | .store _ _ _ => none
  | .swap _ => none
  | .exchange _ _ => none
  | .not _ _ => none
  | .and _ _ => none
  | .or _ _ => none
  | .xor _ _ => none
  | .jump _ => none
  | .jeqz _ _ => none
  | .jnez _ _ => none
  | .debug _ => none
  | .copy _ _ => none
  | .diagnop => none

/-- The jumps, which write the program counter (44_control_transfer.md). -/
def isJump (i : Instr) : Bool :=
  match i with
  | .jump _ => true
  | .jeqz _ _ => true
  | .jnez _ _ => true
  | .hcf => false
  | .add => false
  | .sub => false
  | .div => false
  | .mul => false
  | .loadi _ _ _ => false
  | .move _ _ _ => false
  | .load _ _ _ => false
  | .store _ _ _ => false
  | .swap _ => false
  | .exchange _ _ => false
  | .not _ _ => false
  | .and _ _ => false
  | .or _ _ => false
  | .xor _ _ => false
  | .debug _ => false
  | .copy _ _ => false
  | .diagnop => false

end Sys2Proof.Machine
end

