-- ==== Sys2Proof/Certificates/Slice0/Obligations.lean ====
section
/-! DEFINITION. The statements for the provers. Rule numbers are those of spec/. A rule that spec/ marks as a decision of
its own (92_eei_decisions.md) is named so; a clause that rests on a choice of this model names its log entry. -/

open Sys2Proof Sys2Proof.Machine

/-! ### Reset -/

/-- 10_state.md R25 and 70_reset_and_hazards.md R122 (decisions D1, D15, D17, D18), for every value of the OPEN
parameters: what `reset(image)` sets, and that an image longer than ROM is refused. -/
def Obligations.ResetSetsTheWholeState : Prop :=
  Config.PC_RESET = 0xFFFFFFF6 ∧
  ∀ (c : Config.Open) (image : List Byte),
    (image.length ≤ 0x200000 →
      ∃ s, resetWith c image = some s ∧
        (∀ i : RegIdx, s.x[i] = c.REG_INIT i) ∧
        s.pc = c.PC_RESET ∧
        s.halted = false ∧
        s.fault.FAULT_KIND = 0x00 ∧ s.fault.FAULT_PC = 0 ∧ s.fault.FAULT_OPCODE = 0 ∧ s.fault.FAULT_ADDR = 0 ∧
        (∀ (a : Nat) (h : a < image.length), s.byte a = image[a]) ∧
        (∀ a, image.length ≤ a → a < 0x200000 → s.byte a = c.ROM_FILL a) ∧
        (∀ k, k < 0x80000 → s.byte (0x200000 + k) = c.RAM_INIT k) ∧
        s.dbg = []) ∧
    (0x200000 < image.length → resetWith c image = none)

/-- The model's choice (notes/assumptions/1.md, 2.md, 3.md): `State.reset` is `reset` with no image and with the values
this model names for the OPEN parameters. Its program counter is the one of 10_state.md R26. -/
def Obligations.ResetStateIsResetWithTheNamedValues : Prop :=
  resetWith Config.named [] = some State.reset ∧ State.reset.pc = 0xFFFFFFF6 ∧ State.reset.pc + 10 = 0

/-- 70_reset_and_hazards.md R123, which spec/ derives: with `PC_RESET` at its value the first step after reset runs the
record at address 0, the first ten bytes of the image. -/
def Obligations.FirstStepRunsTheRecordAtAddressZero : Prop :=
  ∀ (c : Config.Open) (image : List Byte) (s : State) (i : Instr),
    c.PC_RESET = Config.PC_RESET → resetWith c image = some s → decode image = .ok i →
      step s = exec i { s with pc := 0 }

/-! ### The step -/

/-- A running core whose next ten bytes decode to a well-formed instruction runs it in the pre-advanced state
(40_sequencer.md R69, 10_state.md R15). -/
def Obligations.StepRunsTheDecodedInstruction : Prop :=
  ∀ (s : State) (i : Instr),
    s.Running → (s.pc + 10).toNat + 10 ≤ Config.MEMSIZE → i.wf = true →
    decode (s.bytes (s.pc + 10).toNat 10) = .ok i →
      step s = exec i { s with pc := s.pc + 10 }

/-- The parameters that decoding and execution take as arguments (00_scope.md R6; decisions D3, D9): `step` and `exec` are
`stepWith` and `execWith` at the spec's defaults, and of the parameters only `MOVE_ADDRESSING` reaches execution, through
`move` alone (42_data_movement.md R83). -/
def Obligations.ParametersReachExecutionThroughMoveAlone : Prop :=
  (∀ s : State, step s = stepWith Config.defaults s) ∧
  (∀ (i : Instr) (s : State), exec i s = execWith Config.defaults i s) ∧
  ∀ (p : Config.Params) (s : State),
    (∀ (sc : SizeClass) (src dst : Word), execWith p (.move sc src dst) s = moveWith p.MOVE_ADDRESSING sc src dst s) ∧
    (∀ i : Instr, (∀ (sc : SizeClass) (src dst : Word), i ≠ .move sc src dst) → execWith p i s = exec i s)

/-- The same as `StepRunsTheDecodedInstruction` under every setting of the parameters, with the decoder of that setting
(40_sequencer.md R69, 10_state.md R15). -/
def Obligations.EverySettingRunsTheDecodedInstruction : Prop :=
  ∀ (p : Config.Params) (s : State) (i : Instr),
    s.Running → (s.pc + 10).toNat + 10 ≤ Config.MEMSIZE → i.wf p = true →
    decode (s.bytes (s.pc + 10).toNat 10) p = .ok i →
      stepWith p s = execWith p i { s with pc := s.pc + 10 }

/-- 40_sequencer.md R68 (decision D14): a stopped core changes nothing and reports the stop already recorded. -/
def Obligations.StoppedCoreIsInert : Prop :=
  ∀ s : State, s.halted = true ∨ s.fault.FAULT_KIND ≠ 0x00 →
    step s = .next s ∧ s.result = (if s.halted then .halt else .fault s.fault)

/-- The fetch clause of 60_exceptions.md R104 and 40_sequencer.md R69 (decision D8). -/
def Obligations.FetchPastMemoryTakesAddressFault : Prop :=
  ∀ s : State, s.Running → Config.MEMSIZE ≤ (s.pc + 10).toNat + 10 - 1 →
    step s = .next { s with
      pc := s.pc + 10
      fault := { FAULT_KIND := 0x04, FAULT_PC := s.pc + 10, FAULT_OPCODE := 0x00, FAULT_ADDR := s.pc + 10 } }

/-- 40_sequencer.md R75 and 60_exceptions.md R102: an opcode byte 0x14 to 0xFE, whatever the other nine bytes. -/
def Obligations.UnknownOpcodeTakesUnknownOpcodeFault : Prop :=
  ∀ s : State, s.Running → (s.pc + 10).toNat + 10 ≤ Config.MEMSIZE →
    0x14 ≤ (s.byte (s.pc + 10).toNat).toNat → (s.byte (s.pc + 10).toNat).toNat ≤ 0xFE →
      step s = .next { s with
        pc := s.pc + 10
        fault :=
          { FAULT_KIND := 0x02
            FAULT_PC := s.pc + 10
            FAULT_OPCODE := s.byte (s.pc + 10).toNat
            FAULT_ADDR := 0 } }

/-- Every step, in every state, answers a next state: the model neither refuses nor stops (log 4). -/
def Obligations.EveryStepAnswersANextState : Prop :=
  ∀ s : State, ∃ t, step s = .next t

/-- 60_exceptions.md R108 (decisions D14, D15): after a step that raises a fault, the fault record is the one the rule
gives, with the address of R100 for the two kinds that have one; nothing else has changed but the pre-advance of `pc`;
the fault is what is reported, and the core takes no further step. -/
def Obligations.FaultsArePreciseAndFatal : Prop :=
  ∀ s t : State, s.Running → step s = .next t → t.fault.FAULT_KIND ≠ 0x00 →
    t = { s with pc := s.pc + 10, fault := t.fault } ∧
    t.fault.FAULT_PC = s.pc + 10 ∧
    t.fault.FAULT_OPCODE =
      (if (s.pc + 10).toNat + 10 ≤ Config.MEMSIZE then s.byte (s.pc + 10).toNat else 0x00) ∧
    t.fault.FAULT_KIND.toNat ≤ 6 ∧
    (t.fault.FAULT_KIND = 0x01 →
      ∃ i sc, decode (s.bytes (s.pc + 10).toNat 10) = .ok i ∧ storesTo i s = some (t.fault.FAULT_ADDR, sc)) ∧
    (t.fault.FAULT_KIND = 0x04 →
      (Config.MEMSIZE < (s.pc + 10).toNat + 10 ∧ t.fault.FAULT_ADDR = s.pc + 10) ∨
      ∃ i sc, decode (s.bytes (s.pc + 10).toNat 10) = .ok i ∧
        (storesTo i s = some (t.fault.FAULT_ADDR, sc) ∨ loadsFrom i s = some (t.fault.FAULT_ADDR, sc))) ∧
    (t.fault.FAULT_KIND ≠ 0x01 → t.fault.FAULT_KIND ≠ 0x04 → t.fault.FAULT_ADDR = 0) ∧
    t.result = .fault t.fault ∧
    step t = .next t

/-- 40_sequencer.md R71, 30_encoding.md R50, 60_exceptions.md R105 and R106 (decisions D4, D5, D16, D20): of every
record that decodes, an unaccepted size class faults first, then a register field whose low byte is 16 or more, with
no effect of the instruction, and a record that passes both raises neither. Under the other setting of
`MOVE_ADDRESSING` the fields of `move` are register fields too. -/
def Obligations.ValidationFaultsOnSizeThenRegister : Prop :=
  (∀ (r : Record) (i : Instr), r.decode = .ok i →
    (acceptsSize r = false → ∀ s : State, exec i s = .next (s.withFault 0x05 r.opcode 0)) ∧
    (acceptsSize r = true → (∃ f ∈ readAsRegisters r, 16 ≤ f.toNat % 256) →
      ∀ s : State, exec i s = .next (s.withFault 0x06 r.opcode 0)) ∧
    (acceptsSize r = true → (∀ f ∈ readAsRegisters r, f.toNat % 256 < 16) →
      ∀ s t : State, s.fault.FAULT_KIND = 0x00 → exec i s = .next t →
        t.fault.FAULT_KIND ≠ 0x05 ∧ t.fault.FAULT_KIND ≠ 0x06)) ∧
  ∀ (s : State) (sc : SizeClass) (src dst : Word),
    ((∀ n, (sc, n) ∉ sizeWidths) → moveWith .registerIndirect sc src dst s = .next (s.withFault 0x05 0x06 0)) ∧
    (∀ n, (sc, n) ∈ sizeWidths → 16 ≤ src.toNat % 256 ∨ 16 ≤ dst.toNat % 256 →
      moveWith .registerIndirect sc src dst s = .next (s.withFault 0x06 0x06 0))

/-! ### Whole-machine rules -/

/-- 20_memory.md R30: no step changes a ROM byte, and a write below `ROMSIZE` is refused with `MemoryProtectionFault`
(with no state to answer, so it writes nothing). -/
def Obligations.RomNeverChanges : Prop :=
  (∀ s t : State, step s = .next t → t.rom = s.rom ∧ ∀ a, a < Config.ROMSIZE → t.byte a = s.byte a) ∧
  (∀ (s : State) (a : Word) (n v : Nat), a.toNat < Config.ROMSIZE →
    s.memWrite a n v = .error { kind := .memoryProtection, addr := a })

/-- 10_state.md R17: only `hcf` sets the halted flag, no instruction clears it, reset does; a halted core takes no step,
and the host reads the flag. -/
def Obligations.OnlyHcfSetsHalted : Prop :=
  (∀ (i : Instr) (s t : State), exec i s = .next t → (t.halted = true ↔ s.halted = true ∨ i = .hcf)) ∧
  (∀ (c : Config.Open) (image : List Byte) (u : State), resetWith c image = some u → u.halted = false) ∧
  (∀ s : State, s.halted = true → step s = .next s) ∧
  (∀ s : State, (readState s).halted = s.halted)

/-- 40_sequencer.md R70, which spec/ derives: every instruction but a jump leaves `pc` as the pre-advance set it. -/
def Obligations.OnlyJumpsWriteThePc : Prop :=
  ∀ (i : Instr) (s t : State), isJump i = false → exec i s = .next t → t.pc = s.pc

/-- 10_state.md R23 and 45_diagnostic.md R97 (decision D13): the sink is append-only and never read. A step appends the
same values, at most one, whatever the sink already holds, and everything else it does is the same. -/
def Obligations.SinkIsAppendOnlyAndNeverRead : Prop :=
  ∀ s t : State, step s = .next t →
    ∃ out : List Word, out.length ≤ 1 ∧ t.dbg = s.dbg ++ out ∧
      ∀ l : List Word, step { s with dbg := l } = .next { t with dbg := l ++ out }

/-- 10_state.md R13, which spec/ derives: an instruction changes no register but those the table gives it. -/
def Obligations.RegistersChangeOnlyAsTabled : Prop :=
  ∀ (i : Instr) (s t : State) (d : RegIdx), exec i s = .next t → writesRegister i d = false → t.x[d] = s.x[d]

/-- The memory frame of all instructions: every byte outside the stored bytes reads as before, and for an instruction
that stores nothing, every byte does (42_data_movement.md R83, R85; 20_memory.md R37). -/
def Obligations.MemoryChangesOnlyWhereStored : Prop :=
  ∀ (i : Instr) (s t : State), exec i s = .next t →
    (storesTo i s = none → ∀ b, t.byte b = s.byte b) ∧
    (∀ (a : Word) (sc : SizeClass) (n : Nat), storesTo i s = some (a, sc) → (sc, n) ∈ sizeWidths →
      ∀ b, b < a.toNat ∨ a.toNat + n ≤ b → t.byte b = s.byte b) ∧
    (∀ (a : Word) (sc : SizeClass), storesTo i s = some (a, sc) → (∀ n, (sc, n) ∉ sizeWidths) →
      ∀ b, t.byte b = s.byte b)

/-- The invariant holds after reset with every image and every value of the OPEN parameters (10_state.md R25, 00_scope.md
R6), and at `State.reset`. Its memory part speaks of the model's canonical form, which rests on what unlisted bytes read
(log 2). -/
def Obligations.InvariantHoldsAtReset : Prop :=
  (∀ (c : Config.Open) (image : List Byte) (s : State), resetWith c image = some s → s.Inv) ∧ State.reset.Inv

/-- Every step keeps the invariant: both stores stay canonical and in their regions, and the fault record stays one that
10_state.md R18 and 60_exceptions.md R100 allow. -/
def Obligations.EveryStepKeepsTheInvariant : Prop :=
  ∀ s t : State, s.Inv → step s = .next t → t.Inv

/-- Every setting of the parameters keeps the invariant (00_scope.md R6; decisions D3, D9). -/
def Obligations.EverySettingKeepsTheInvariant : Prop :=
  ∀ (p : Config.Params) (s t : State), s.Inv → stepWith p s = .next t → t.Inv

/-- 40_sequencer.md R73, under every setting of the parameters: along the states that successive steps give,
`run_until_halt` answers the report of the first that is stopped, or, with a bound that comes before it, that the bound
was reached. With no bound it answers only at a stop, and a run that never stops answers nothing. -/
def Obligations.RunUntilHaltStopsAtTheFirstStop : Prop :=
  ∀ (p : Config.Params) (trace : Nat → State), (∀ k, stepWith p (trace k) = .next (trace (k + 1))) →
    (∀ n, (∀ k, 1 ≤ k → k ≤ n → (trace k).Running) →
      ∀ r t, RunUntilHalt (some n) (trace 0) r t p ↔ r = .boundReached ∧ t = trace n) ∧
    (∀ m, 1 ≤ m → (∀ k, 1 ≤ k → k < m → (trace k).Running) → ¬ (trace m).Running →
      (∀ n, m ≤ n → ∀ r t, RunUntilHalt (some n) (trace 0) r t p ↔ r = (trace m).result ∧ t = trace m) ∧
      (∀ r t, RunUntilHalt none (trace 0) r t p ↔ r = (trace m).result ∧ t = trace m)) ∧
    ((∀ k, 1 ≤ k → (trace k).Running) → ∀ r t, ¬ RunUntilHalt none (trace 0) r t p)

/-! ### Decoding -/

/-- Decoding what the encoder writes gives the instruction back, for every setting of the size-class bytes in which they
differ, every well-formed instruction and every value of its operands (30_encoding.md R45, R46, R48, R54). -/
def Obligations.DecodeOfEncodeIsTheInstruction : Prop :=
  ∀ (p : Config.Params) (i : Instr), p.wf = true → i.wf p = true → decode (encodeBytes i p) p = .ok i

/-- 30_encoding.md R57, which spec/ derives: every 80-bit record decodes either to a well-formed instruction of its own
opcode, whose record decodes to it again, or to the verdict "unknown opcode". -/
def Obligations.DecoderIsTotalAndCanonical : Prop :=
  ∀ (p : Config.Params) (rec : RecordWord),
    (∃ i, decodeRecord rec p = .ok i ∧ i.wf p = true ∧ i.opcode = rec.extractLsb' 72 8 ∧
      decodeRecord (encode i p) p = .ok i) ∨
    (∃ u, decodeRecord rec p = .error u ∧ u.opcode = rec.extractLsb' 72 8)

/-- 30_encoding.md R54 and R55: the opcode byte alone says whether a record is an instruction, and 0x14 to 0xFE are
exactly the bytes of none. -/
def Obligations.UnknownOpcodesAreExactly14ToFE : Prop :=
  ∀ (p : Config.Params) (r : Record),
    ((0x14 ≤ r.opcode.toNat ∧ r.opcode.toNat ≤ 0xFE) ↔ r.decode p = .error { opcode := r.opcode }) ∧
    ((r.opcode.toNat < 0x14 ∨ r.opcode.toNat = 0xFF) ↔ ∃ i, r.decode p = .ok i)

/-- 30_encoding.md R52 (decision D5): a field marked `-` in R51 and the upper 24 bits of a register field do not change
the instruction. -/
def Obligations.IgnoredFieldBitsDoNotMatter : Prop :=
  ∀ (p : Config.Params) (sc sc' : Byte) (src src' dst dst' : Word),
    (∀ op ∈ [0x00#8, 0x01#8, 0x02#8, 0x03#8, 0x04#8, 0xFF#8],
      (Record.mk op sc src dst).decode p = (Record.mk op sc' src' dst').decode p) ∧
    (dst.toNat % 256 = dst'.toNat % 256 →
      (∀ op ∈ [0x05#8, 0x07#8], (Record.mk op sc src dst).decode p = (Record.mk op sc src dst').decode p) ∧
      (∀ op ∈ [0x09#8, 0x12#8], (Record.mk op sc src dst).decode p = (Record.mk op sc' src' dst').decode p)) ∧
    (src.toNat % 256 = src'.toNat % 256 →
      (∀ op ∈ [0x08#8, 0x10#8, 0x11#8],
        (Record.mk op sc src dst).decode p = (Record.mk op sc src' dst).decode p) ∧
      (Record.mk 0x0F 0x00 src dst).decode p = (Record.mk 0x0F 0x00 src' dst').decode p) ∧
    (src.toNat % 256 = src'.toNat % 256 → dst.toNat % 256 = dst'.toNat % 256 →
      (∀ op ∈ [0x0A#8, 0x0B#8, 0x0C#8, 0x0D#8, 0x0E#8, 0x13#8],
        (Record.mk op sc src dst).decode p = (Record.mk op sc' src' dst').decode p) ∧
      (∀ op ∈ [0x10#8, 0x11#8],
        (Record.mk op 0x00 src dst).decode p = (Record.mk op 0x00 src' dst').decode p)) ∧
    (Record.mk 0x0F sc src dst).decode p = (Record.mk 0x0F sc src dst').decode p

/-- 30_encoding.md R48 and R49 (decisions D3, D4): the size-class bytes and their defaults, the class each selects under
every setting in which they differ, how the opcodes that use a size class read it, and the widths and masks. -/
def Obligations.SizeClassBytesSelectTheClasses : Prop :=
  Config.SC_BYTE = 0x00 ∧
  Config.defaults.SC_WORD = 0x01 ∧ Config.defaults.SC_LONG = 0x02 ∧ Config.defaults.SC_CONST_BYTE = 0x03 ∧
  Config.defaults.SC_CONST_WORD = 0x04 ∧ Config.defaults.SC_CONST_LONG = 0x05 ∧
  (∀ p : Config.Params, p.wf = true →
    SizeClass.ofByte Config.SC_BYTE p = .byte ∧ SizeClass.ofByte p.SC_WORD p = .word ∧
    SizeClass.ofByte p.SC_LONG p = .long ∧ SizeClass.ofByte p.SC_CONST_BYTE p = .constByte ∧
    SizeClass.ofByte p.SC_CONST_WORD p = .constWord ∧ SizeClass.ofByte p.SC_CONST_LONG p = .constLong ∧
    (∀ b, b ∉ p.sizeBytes → SizeClass.ofByte b p = .other b) ∧
    ∀ (sc : Byte) (src dst : Word),
      decodeRecord (Record.mk 0x05 sc src dst).number p =
        .ok (.loadi (SizeClass.ofByte sc p) src (dst.extractLsb' 0 8)) ∧
      decodeRecord (Record.mk 0x06 sc src dst).number p = .ok (.move (SizeClass.ofByte sc p) src dst) ∧
      decodeRecord (Record.mk 0x07 sc src dst).number p =
        .ok (.load (SizeClass.ofByte sc p) src (dst.extractLsb' 0 8)) ∧
      decodeRecord (Record.mk 0x08 sc src dst).number p =
        .ok (.store (SizeClass.ofByte sc p) (src.extractLsb' 0 8) dst) ∧
      ∀ t t' : Target,
        (sc = Config.SC_BYTE ∧ t = .register (src.extractLsb' 0 8) ∧ t' = .register (dst.extractLsb' 0 8) ∨
          sc = p.SC_CONST_LONG ∧ t = .literal src ∧ t' = .literal dst ∨
          sc ≠ Config.SC_BYTE ∧ sc ≠ p.SC_CONST_LONG ∧ t = .unaccepted (SizeClass.ofByte sc p) src ∧
            t' = .unaccepted (SizeClass.ofByte sc p) dst) →
        decodeRecord (Record.mk 0x0F sc src dst).number p = .ok (.jump t) ∧
        decodeRecord (Record.mk 0x10 sc src dst).number p = .ok (.jeqz (src.extractLsb' 0 8) t') ∧
        decodeRecord (Record.mk 0x11 sc src dst).number p = .ok (.jnez (src.extractLsb' 0 8) t')) ∧
  (∀ (sc : SizeClass) (n : Nat), width sc = .ok n ↔ (sc, n) ∈ sizeWidths) ∧
  (∀ sc : SizeClass, (∀ n, (sc, n) ∉ sizeWidths) → width sc = .error { kind := .illegalSize }) ∧
  mask 1 = 0xFF ∧ mask 2 = 0xFFFF ∧ mask 4 = 0xFFFFFFFF

/-- Words written out from the spec's encodings (95_test_vectors.md W1, V-AR-3, W2, W3, V-DM-16, V-LG-3, V-DG-4, V-SEQ-3),
one of each family. -/
def Obligations.SampleWordsDecode : Prop :=
  decodeRecord 0x00000000000000000000 = .ok .hcf ∧
  decodeRecord 0x0199FFFFFFFFFFFFFFFF = .ok .add ∧
  decodeRecord 0x0F050000000A00000000 = .ok (.jump (.literal 10)) ∧
  decodeRecord 0x05000000002A00000003 = .ok (.loadi .byte 42 3) ∧
  decodeRecord 0x08020000000500200000 = .ok (.store .long 5 0x200000) ∧
  decodeRecord 0x0C000000000100000002 = .ok (.and 1 2) ∧
  decodeRecord 0xFF123456789ABCDEF011 = .ok .diagnop ∧
  decodeRecord 0x14000000000000000000 = .error { opcode := 0x14 }

/-- The model's own tool (log 5): an encoded instruction placed where the next step fetches is the one that step runs,
from every state. The step's `pc` is the next record's address, or 0 where that record lies outside memory; the
registers, the sink and every byte outside the ten are as they were. -/
def Obligations.PlacedInstructionRunsNext : Prop :=
  ∀ (s : State) (i : Instr), i.wf = true →
    ∃ u : State,
      step (s.withFetchWord 80 (encode i).toNat) = exec i u ∧
      u.x = s.x ∧ u.dbg = s.dbg ∧ u.halted = false ∧ u.fault = .clear ∧
      u.pc = (if (s.pc + 10).toNat + 10 ≤ Config.MEMSIZE then s.pc else Config.PC_RESET) + 10 ∧
      u.bytes u.pc.toNat 10 = encodeBytes i ∧
      (∀ b, b < u.pc.toNat ∨ u.pc.toNat + 10 ≤ b → u.byte b = s.byte b)

/-! ### Memory -/

/-- 20_memory.md R33 (decisions D7, D8): a read answers the bytes as one number, most significant first, or
`AddressFault` by an exact sum. -/
def Obligations.MemReadIsBigEndianAndChecked : Prop :=
  ∀ (s : State) (a : Word) (n : Nat), n ∈ [1, 2, 4, 10] →
    (Config.MEMSIZE ≤ a.toNat + n - 1 → s.memRead a n = .error { kind := .address, addr := a }) ∧
    (a.toNat + n - 1 < Config.MEMSIZE → ∃ v, s.memRead a n = .ok v ∧ v < 256 ^ n ∧
      ∀ k, k < n → BitVec.ofNat 8 (v / 256 ^ (n - 1 - k)) = s.byte (a.toNat + k))

/-- 20_memory.md R34 (decisions D7, D8): protection of the start address, then the exact range check, then the bytes,
most significant first, into RAM and nowhere else. -/
def Obligations.MemWriteIsBigEndianAndChecked : Prop :=
  ∀ (s : State) (a : Word) (n v : Nat), n ∈ [1, 2, 4] →
    (a.toNat < Config.ROMSIZE → s.memWrite a n v = .error { kind := .memoryProtection, addr := a }) ∧
    (Config.ROMSIZE ≤ a.toNat → Config.MEMSIZE ≤ a.toNat + n - 1 →
      s.memWrite a n v = .error { kind := .address, addr := a }) ∧
    (Config.ROMSIZE ≤ a.toNat → a.toNat + n - 1 < Config.MEMSIZE →
      ∃ t, s.memWrite a n v = .ok t ∧ t = { s with ram := t.ram } ∧
        (∀ k, k < n → t.byte (a.toNat + k) = BitVec.ofNat 8 (v / 256 ^ (n - 1 - k))) ∧
        (∀ b, b < a.toNat ∨ a.toNat + n ≤ b → t.byte b = s.byte b))

/-- The mixed-width reading of 20_memory.md R35 (decision D7): after a longword store, a word load one byte in gives the
middle two bytes and a byte load three bytes in gives the low byte. -/
def Obligations.NarrowLoadsSeeTheStoredLongword : Prop :=
  ∀ (s t : State) (rs : RegField) (i d : RegIdx) (rd : RegField) (a : Word),
    rs.toNat = i.val → rd.toNat = d.val → Config.ROMSIZE ≤ a.toNat → a.toNat + 4 ≤ Config.MEMSIZE →
    exec (.store .long rs a) s = .next t →
      exec (.load .word (a + 1) rd) t = .next { t with x := t.x.set d (BitVec.ofNat 32 (s.x[i].toNat / 256 % 65536)) } ∧
      exec (.load .byte (a + 3) rd) t = .next { t with x := t.x.set d (BitVec.ofNat 32 (s.x[i].toNat % 256)) }

/-- The fetch coherence of 20_memory.md R43 (decision D23): a byte stored inside the next record is the byte that the
very next fetch reads there. -/
def Obligations.NextFetchSeesTheStoredByte : Prop :=
  ∀ (s t : State) (rs : RegField) (i : RegIdx) (a : Word) (k : Nat),
    rs.toNat = i.val → Config.ROMSIZE ≤ a.toNat → k < 10 →
    a.toNat = (s.pc + 10).toNat + k → (s.pc + 10).toNat + 10 ≤ Config.MEMSIZE →
    exec (.store .byte rs a) s = .next t →
      ∃ rec, t.preAdvance.fetch = .ok rec ∧ rec.extractLsb' (8 * (9 - k)) 8 = s.x[i].extractLsb' 0 8

/-- 20_memory.md R29: where the pixels lie, and that `read_display` and the pixel view read those bytes. -/
def Obligations.PixelsLieInTheDisplayWindow : Prop :=
  Config.SCREEN_BASE = 0x247C00 ∧ Config.SCREEN_BYTES = 230400 ∧
  ∀ (s : State) (px py : Nat), px < 320 → py < 240 →
    0x247C00 ≤ pixelAddress px py ∧ pixelAddress px py + 2 < 0x280000 ∧
    pixelAddress px py = 0x247C00 + 3 * (px + py * 320) ∧
    s.pixel px py = (s.byte (pixelAddress px py), s.byte (pixelAddress px py + 1), s.byte (pixelAddress px py + 2)) ∧
    ∀ k, k < 3 → (readDisplay s)[3 * (px + py * 320) + k]? = some (s.byte (pixelAddress px py + k))

/-! ### hcf, diagnop -/

/-- 40_sequencer.md R74: `hcf`, with any value in its ignored fields, sets the halted flag and nothing else, and is
reported as `Halt`. -/
def Obligations.HcfSetsHaltedOnly : Prop :=
  (∀ sc src dst, decodeRecord (Record.mk 0x00 sc src dst).number = .ok .hcf) ∧
  ∀ s : State, exec .hcf s = .next { s with halted := true } ∧ State.result { s with halted := true } = .halt

/-- 45_diagnostic.md R98: `diagnop`, with any value in its ignored fields, changes nothing. -/
def Obligations.DiagnopChangesNothing : Prop :=
  (∀ sc src dst, decodeRecord (Record.mk 0xFF sc src dst).number = .ok .diagnop) ∧
  ∀ s : State, exec .diagnop s = .next s

/-! ### Fixed-register arithmetic -/

/-- 41_arithmetic.md R77, R78, R80 (decision D6): `add`, `sub` and `mul` write the exact result modulo 2^32 of `x[0]` and
`x[1]` to `x[2]`, and change nothing else. -/
def Obligations.AddSubMulWriteTheWrappedResult : Prop :=
  (∀ sc src dst,
    decodeRecord (Record.mk 0x01 sc src dst).number = .ok .add ∧
    decodeRecord (Record.mk 0x02 sc src dst).number = .ok .sub ∧
    decodeRecord (Record.mk 0x04 sc src dst).number = .ok .mul) ∧
  ∀ s : State,
    exec .add s = .next { s with x := s.x.set 2 (BitVec.ofNat 32 (s.x[0].toNat + s.x[1].toNat)) } ∧
    exec .sub s = .next { s with x := s.x.set 2 (BitVec.ofInt 32 ((s.x[0].toNat : Int) - (s.x[1].toNat : Int))) } ∧
    exec .mul s = .next { s with x := s.x.set 2 (BitVec.ofNat 32 (s.x[0].toNat * s.x[1].toNat)) }

/-- 41_arithmetic.md R79 (decision D6): `div` writes the unsigned quotient rounded toward zero, or with a zero divisor
takes `ArithmeticFault` and leaves everything else. -/
def Obligations.DivWritesTheUnsignedQuotient : Prop :=
  (∀ sc src dst, decodeRecord (Record.mk 0x03 sc src dst).number = .ok .div) ∧
  ∀ s : State,
    (s.x[1] ≠ 0 → exec .div s = .next { s with x := s.x.set 2 (BitVec.ofNat 32 (s.x[0].toNat / s.x[1].toNat)) }) ∧
    (s.x[1] = 0 → exec .div s = .next (s.withFault 0x03 0x03 0))

/-! ### Data movement -/

/-- 42_data_movement.md R81 (decisions D3, D4): `loadi` writes the literal masked to the width, zero above it; an
unaccepted size class or a register of 16 or more faults. -/
def Obligations.LoadiWritesTheMaskedLiteral : Prop :=
  (∀ sc src dst, decodeRecord (Record.mk 0x05 sc src dst).number =
    .ok (.loadi (SizeClass.ofByte sc) src (dst.extractLsb' 0 8))) ∧
  ∀ (s : State) (sc : SizeClass) (lit : Word) (rd : RegField),
    (∀ (n : Nat) (d : RegIdx), (sc, n) ∈ sizeWidths → rd.toNat = d.val →
      exec (.loadi sc lit rd) s = .next { s with x := s.x.set d (BitVec.ofNat 32 (lit.toNat % 256 ^ n)) }) ∧
    ((∀ n, (sc, n) ∉ sizeWidths) → exec (.loadi sc lit rd) s = .next (s.withFault 0x05 0x05 0)) ∧
    (∀ n, (sc, n) ∈ sizeWidths → 16 ≤ rd.toNat → exec (.loadi sc lit rd) s = .next (s.withFault 0x06 0x05 0))

/-- 42_data_movement.md R82: `copy`. -/
def Obligations.CopyWritesTheSourceRegister : Prop :=
  (∀ sc src dst, decodeRecord (Record.mk 0x13 sc src dst).number =
    .ok (.copy (src.extractLsb' 0 8) (dst.extractLsb' 0 8))) ∧
  ∀ (s : State) (rs rd : RegField),
    (∀ i d : RegIdx, rs.toNat = i.val → rd.toNat = d.val →
      exec (.copy rs rd) s = .next { s with x := s.x.set d s.x[i] }) ∧
    (16 ≤ rs.toNat ∨ 16 ≤ rd.toNat → exec (.copy rs rd) s = .next (s.withFault 0x06 0x13 0))

/-- 42_data_movement.md R83 (decisions D9, D10, D16): `move`, with its fields as the addresses, which is the core's
setting of `MOVE_ADDRESSING`. It copies the `n` bytes as they were before the instruction, checks protection of the
destination, then the source range, then the destination range, and in every fault case writes nothing. Under the
other setting the fields are validated as registers, and it does the same with the addresses in the two registers. -/
def Obligations.MoveCopiesTheOldSourceBytes : Prop :=
  (∀ sc src dst, decodeRecord (Record.mk 0x06 sc src dst).number = .ok (.move (SizeClass.ofByte sc) src dst)) ∧
  ∀ (s : State) (sc : SizeClass) (src dst : Word),
    ((∀ n, (sc, n) ∉ sizeWidths) → exec (.move sc src dst) s = .next (s.withFault 0x05 0x06 0)) ∧
    (∀ n, (sc, n) ∈ sizeWidths →
      (dst.toNat < Config.ROMSIZE → exec (.move sc src dst) s = .next (s.withFault 0x01 0x06 dst)) ∧
      (Config.ROMSIZE ≤ dst.toNat → Config.MEMSIZE ≤ src.toNat + n - 1 →
        exec (.move sc src dst) s = .next (s.withFault 0x04 0x06 src)) ∧
      (Config.ROMSIZE ≤ dst.toNat → src.toNat + n - 1 < Config.MEMSIZE → Config.MEMSIZE ≤ dst.toNat + n - 1 →
        exec (.move sc src dst) s = .next (s.withFault 0x04 0x06 dst)) ∧
      (Config.ROMSIZE ≤ dst.toNat → src.toNat + n - 1 < Config.MEMSIZE → dst.toNat + n - 1 < Config.MEMSIZE →
        ∃ t, exec (.move sc src dst) s = .next t ∧ t = { s with ram := t.ram } ∧
          (∀ k, k < n → t.byte (dst.toNat + k) = s.byte (src.toNat + k)) ∧
          (∀ b, b < dst.toNat ∨ dst.toNat + n ≤ b → t.byte b = s.byte b))) ∧
    ((∀ n, (sc, n) ∉ sizeWidths) →
      moveWith .registerIndirect sc src dst s = .next (s.withFault 0x05 0x06 0)) ∧
    (∀ n, (sc, n) ∈ sizeWidths → 16 ≤ src.toNat % 256 ∨ 16 ≤ dst.toNat % 256 →
      moveWith .registerIndirect sc src dst s = .next (s.withFault 0x06 0x06 0)) ∧
    (∀ i j : RegIdx, src.toNat % 256 = i.val → dst.toNat % 256 = j.val →
      moveWith .registerIndirect sc src dst s = exec (.move sc s.x[i] s.x[j]) s)

/-- 42_data_movement.md R84 (decisions D7, D8): `load` writes the big-endian value, zero-extended; size class, register
and address range are checked in that order. -/
def Obligations.LoadReadsBigEndianZeroExtended : Prop :=
  (∀ sc src dst, decodeRecord (Record.mk 0x07 sc src dst).number =
    .ok (.load (SizeClass.ofByte sc) src (dst.extractLsb' 0 8))) ∧
  ∀ (s : State) (sc : SizeClass) (addr : Word) (rd : RegField),
    (∀ (n : Nat) (d : RegIdx), (sc, n) ∈ sizeWidths → rd.toNat = d.val → addr.toNat + n - 1 < Config.MEMSIZE →
      ∃ v : Word, exec (.load sc addr rd) s = .next { s with x := s.x.set d v } ∧ v.toNat < 256 ^ n ∧
        ∀ k, k < n → BitVec.ofNat 8 (v.toNat / 256 ^ (n - 1 - k)) = s.byte (addr.toNat + k)) ∧
    ((∀ n, (sc, n) ∉ sizeWidths) → exec (.load sc addr rd) s = .next (s.withFault 0x05 0x07 0)) ∧
    (∀ n, (sc, n) ∈ sizeWidths → 16 ≤ rd.toNat → exec (.load sc addr rd) s = .next (s.withFault 0x06 0x07 0)) ∧
    (∀ n, (sc, n) ∈ sizeWidths → rd.toNat < 16 → Config.MEMSIZE ≤ addr.toNat + n - 1 →
      exec (.load sc addr rd) s = .next (s.withFault 0x04 0x07 addr))

/-- 42_data_movement.md R85 (decisions D7, D8): `store` writes the low-order `n` bytes of the register, most significant
first, from the address on; every other byte and everything else is unchanged; no byte is written in a fault case. -/
def Obligations.StoreWritesTheLowBytesBigEndian : Prop :=
  (∀ sc src dst, decodeRecord (Record.mk 0x08 sc src dst).number =
    .ok (.store (SizeClass.ofByte sc) (src.extractLsb' 0 8) dst)) ∧
  ∀ (s : State) (sc : SizeClass) (rs : RegField) (addr : Word),
    (∀ (n : Nat) (i : RegIdx), (sc, n) ∈ sizeWidths → rs.toNat = i.val → Config.ROMSIZE ≤ addr.toNat →
      addr.toNat + n - 1 < Config.MEMSIZE →
      ∃ t, exec (.store sc rs addr) s = .next t ∧ t = { s with ram := t.ram } ∧
        (∀ k, k < n → t.byte (addr.toNat + k) = BitVec.ofNat 8 (s.x[i].toNat / 256 ^ (n - 1 - k))) ∧
        (∀ b, b < addr.toNat ∨ addr.toNat + n ≤ b → t.byte b = s.byte b)) ∧
    ((∀ n, (sc, n) ∉ sizeWidths) → exec (.store sc rs addr) s = .next (s.withFault 0x05 0x08 0)) ∧
    (∀ n, (sc, n) ∈ sizeWidths → 16 ≤ rs.toNat → exec (.store sc rs addr) s = .next (s.withFault 0x06 0x08 0)) ∧
    (∀ n, (sc, n) ∈ sizeWidths → rs.toNat < 16 → addr.toNat < Config.ROMSIZE →
      exec (.store sc rs addr) s = .next (s.withFault 0x01 0x08 addr)) ∧
    (∀ n, (sc, n) ∈ sizeWidths → rs.toNat < 16 → Config.ROMSIZE ≤ addr.toNat → Config.MEMSIZE ≤ addr.toNat + n - 1 →
      exec (.store sc rs addr) s = .next (s.withFault 0x04 0x08 addr))

/-- 42_data_movement.md R86: `swap` exchanges the two halves of the register. -/
def Obligations.SwapExchangesTheHalves : Prop :=
  (∀ sc src dst, decodeRecord (Record.mk 0x09 sc src dst).number = .ok (.swap (dst.extractLsb' 0 8))) ∧
  ∀ (s : State) (rd : RegField),
    (∀ d : RegIdx, rd.toNat = d.val → exec (.swap rd) s =
      .next { s with x := s.x.set d (BitVec.ofNat 32 (s.x[d].toNat % 65536 * 65536 + s.x[d].toNat / 65536)) }) ∧
    (16 ≤ rd.toNat → exec (.swap rd) s = .next (s.withFault 0x06 0x09 0))

/-- 42_data_movement.md R87: `exchange` swaps the two registers; with one register named twice nothing changes. -/
def Obligations.ExchangeSwapsTheRegisters : Prop :=
  (∀ sc src dst, decodeRecord (Record.mk 0x0A sc src dst).number =
    .ok (.exchange (src.extractLsb' 0 8) (dst.extractLsb' 0 8))) ∧
  ∀ (s : State) (rs rd : RegField),
    (∀ i d : RegIdx, rs.toNat = i.val → rd.toNat = d.val →
      ∃ t, exec (.exchange rs rd) s = .next t ∧ t = { s with x := t.x } ∧ t.x[i] = s.x[d] ∧ t.x[d] = s.x[i] ∧
        ∀ j : RegIdx, j ≠ i → j ≠ d → t.x[j] = s.x[j]) ∧
    (16 ≤ rs.toNat ∨ 16 ≤ rd.toNat → exec (.exchange rs rd) s = .next (s.withFault 0x06 0x0A 0))

/-! ### Bitwise logic -/

/-- 43_logical.md R88 (decision D12): `not` copies the source register and does not complement it. -/
def Obligations.NotCopiesTheSourceRegister : Prop :=
  (∀ sc src dst, decodeRecord (Record.mk 0x0B sc src dst).number =
    .ok (.not (src.extractLsb' 0 8) (dst.extractLsb' 0 8))) ∧
  ∀ (s : State) (rs rd : RegField),
    (∀ i d : RegIdx, rs.toNat = i.val → rd.toNat = d.val →
      exec (.not rs rd) s = .next { s with x := s.x.set d s.x[i] }) ∧
    (16 ≤ rs.toNat ∨ 16 ≤ rd.toNat → exec (.not rs rd) s = .next (s.withFault 0x06 0x0B 0))

/-- 43_logical.md R89, R90, R91: `and`, `or` and `xor` combine the two registers bit by bit into the dest register. -/
def Obligations.AndOrXorCombineBitByBit : Prop :=
  (∀ sc src dst,
    decodeRecord (Record.mk 0x0C sc src dst).number = .ok (.and (src.extractLsb' 0 8) (dst.extractLsb' 0 8)) ∧
    decodeRecord (Record.mk 0x0D sc src dst).number = .ok (.or (src.extractLsb' 0 8) (dst.extractLsb' 0 8)) ∧
    decodeRecord (Record.mk 0x0E sc src dst).number = .ok (.xor (src.extractLsb' 0 8) (dst.extractLsb' 0 8))) ∧
  ∀ (s : State) (rs rd : RegField),
    (∀ i d : RegIdx, rs.toNat = i.val → rd.toNat = d.val →
      exec (.and rs rd) s = .next { s with x := s.x.set d (s.x[i] &&& s.x[d]) } ∧
      exec (.or rs rd) s = .next { s with x := s.x.set d (s.x[i] ||| s.x[d]) } ∧
      exec (.xor rs rd) s = .next { s with x := s.x.set d (s.x[i] ^^^ s.x[d]) }) ∧
    (16 ≤ rs.toNat ∨ 16 ≤ rd.toNat →
      exec (.and rs rd) s = .next (s.withFault 0x06 0x0C 0) ∧
      exec (.or rs rd) s = .next (s.withFault 0x06 0x0D 0) ∧
      exec (.xor rs rd) s = .next (s.withFault 0x06 0x0E 0))

/-! ### Control transfer -/

/-- 44_control_transfer.md R93 (decisions D1, D2, D3): `jump` writes the target minus 10 modulo 2^32 to `pc`, with the
target a register's whole value or the literal, unchecked; nothing else changes. -/
def Obligations.JumpWritesTargetMinusTen : Prop :=
  (∀ sc src dst,
    decodeRecord (Record.mk 0x0F 0x00 src dst).number = .ok (.jump (.register (src.extractLsb' 0 8))) ∧
    decodeRecord (Record.mk 0x0F 0x05 src dst).number = .ok (.jump (.literal src)) ∧
    (sc ≠ 0x00 → sc ≠ 0x05 →
      decodeRecord (Record.mk 0x0F sc src dst).number = .ok (.jump (.unaccepted (SizeClass.ofByte sc) src)))) ∧
  ∀ s : State,
    (∀ a : Word, exec (.jump (.literal a)) s = .next { s with pc := a - 10 }) ∧
    (∀ (r : RegField) (d : RegIdx), r.toNat = d.val →
      exec (.jump (.register r)) s = .next { s with pc := s.x[d] - 10 }) ∧
    (∀ r : RegField, 16 ≤ r.toNat → exec (.jump (.register r)) s = .next (s.withFault 0x06 0x0F 0)) ∧
    (∀ sc f, exec (.jump (.unaccepted sc f)) s = .next (s.withFault 0x05 0x0F 0))

/-- 44_control_transfer.md R94 (decisions D20, D22): `jeqz` redirects only when the condition register is exactly zero;
its operands are validated either way. -/
def Obligations.JeqzRedirectsOnlyOnZero : Prop :=
  (∀ sc src dst,
    decodeRecord (Record.mk 0x10 0x00 src dst).number =
      .ok (.jeqz (src.extractLsb' 0 8) (.register (dst.extractLsb' 0 8))) ∧
    decodeRecord (Record.mk 0x10 0x05 src dst).number = .ok (.jeqz (src.extractLsb' 0 8) (.literal dst)) ∧
    (sc ≠ 0x00 → sc ≠ 0x05 → decodeRecord (Record.mk 0x10 sc src dst).number =
      .ok (.jeqz (src.extractLsb' 0 8) (.unaccepted (SizeClass.ofByte sc) dst)))) ∧
  ∀ (s : State) (rs : RegField),
    (∀ (i : RegIdx) (a : Word), rs.toNat = i.val →
      exec (.jeqz rs (.literal a)) s = .next { s with pc := if s.x[i] = 0 then a - 10 else s.pc }) ∧
    (∀ (i d : RegIdx) (r : RegField), rs.toNat = i.val → r.toNat = d.val →
      exec (.jeqz rs (.register r)) s = .next { s with pc := if s.x[i] = 0 then s.x[d] - 10 else s.pc }) ∧
    (∀ a : Word, 16 ≤ rs.toNat → exec (.jeqz rs (.literal a)) s = .next (s.withFault 0x06 0x10 0)) ∧
    (∀ r : RegField, 16 ≤ rs.toNat ∨ 16 ≤ r.toNat →
      exec (.jeqz rs (.register r)) s = .next (s.withFault 0x06 0x10 0)) ∧
    (∀ sc f, exec (.jeqz rs (.unaccepted sc f)) s = .next (s.withFault 0x05 0x10 0))

/-- 44_control_transfer.md R95 (decisions D20, D22): `jnez` redirects for every value of the condition register but
zero; its operands are validated either way. -/
def Obligations.JnezRedirectsUnlessZero : Prop :=
  (∀ sc src dst,
    decodeRecord (Record.mk 0x11 0x00 src dst).number =
      .ok (.jnez (src.extractLsb' 0 8) (.register (dst.extractLsb' 0 8))) ∧
    decodeRecord (Record.mk 0x11 0x05 src dst).number = .ok (.jnez (src.extractLsb' 0 8) (.literal dst)) ∧
    (sc ≠ 0x00 → sc ≠ 0x05 → decodeRecord (Record.mk 0x11 sc src dst).number =
      .ok (.jnez (src.extractLsb' 0 8) (.unaccepted (SizeClass.ofByte sc) dst)))) ∧
  ∀ (s : State) (rs : RegField),
    (∀ (i : RegIdx) (a : Word), rs.toNat = i.val →
      exec (.jnez rs (.literal a)) s = .next { s with pc := if s.x[i] = 0 then s.pc else a - 10 }) ∧
    (∀ (i d : RegIdx) (r : RegField), rs.toNat = i.val → r.toNat = d.val →
      exec (.jnez rs (.register r)) s = .next { s with pc := if s.x[i] = 0 then s.pc else s.x[d] - 10 }) ∧
    (∀ a : Word, 16 ≤ rs.toNat → exec (.jnez rs (.literal a)) s = .next (s.withFault 0x06 0x11 0)) ∧
    (∀ r : RegField, 16 ≤ rs.toNat ∨ 16 ≤ r.toNat →
      exec (.jnez rs (.register r)) s = .next (s.withFault 0x06 0x11 0)) ∧
    (∀ sc f, exec (.jnez rs (.unaccepted sc f)) s = .next (s.withFault 0x05 0x11 0))

/-- The target is where the next record is fetched: after a jump to a register's value or a literal, the next step's record
is at it, and after a conditional jump that is not taken it is the next sequential one (10_state.md R15;
44_control_transfer.md R92 to R95). -/
def Obligations.NextRecordAfterAJumpIsTheTarget : Prop :=
  ∀ s t : State,
    (∀ a : Word, exec (.jump (.literal a)) s = .next t → t.preAdvance.pc = a) ∧
    (∀ (r : RegField) (d : RegIdx), r.toNat = d.val →
      exec (.jump (.register r)) s = .next t → t.preAdvance.pc = s.x[d]) ∧
    ∀ (rs : RegField) (i : RegIdx), rs.toNat = i.val →
      (∀ a : Word, exec (.jeqz rs (.literal a)) s = .next t →
        t.preAdvance.pc = if s.x[i] = 0 then a else s.pc + 10) ∧
      (∀ a : Word, exec (.jnez rs (.literal a)) s = .next t →
        t.preAdvance.pc = if s.x[i] = 0 then s.pc + 10 else a) ∧
      ∀ (r : RegField) (d : RegIdx), r.toNat = d.val →
        (exec (.jeqz rs (.register r)) s = .next t →
          t.preAdvance.pc = if s.x[i] = 0 then s.x[d] else s.pc + 10) ∧
        (exec (.jnez rs (.register r)) s = .next t →
          t.preAdvance.pc = if s.x[i] = 0 then s.pc + 10 else s.x[d])

/-! ### debug -/

/-- 45_diagnostic.md R97 (decision D13): `debug` appends the register of the dest field to the sink and changes nothing
else; an illegal register emits nothing. -/
def Obligations.DebugAppendsTheRegister : Prop :=
  (∀ sc src dst, decodeRecord (Record.mk 0x12 sc src dst).number = .ok (.debug (dst.extractLsb' 0 8))) ∧
  ∀ (s : State) (rd : RegField),
    (∀ d : RegIdx, rd.toNat = d.val → exec (.debug rd) s = .next { s with dbg := s.dbg ++ [s.x[d]] }) ∧
    (16 ≤ rd.toNat → exec (.debug rd) s = .next (s.withFault 0x06 0x12 0))
end

