-- ==== Sys2Proof/Laws/Bytes.lean ====
section
/-! SUPPORT. Big-endian bytes and numbers: `beBytes` and `beNat` undo each other. -/

namespace Sys2Proof

@[simp] theorem beNat_nil : beNat [] = 0 := rfl

theorem beNat_append_singleton (bs : List Byte) (b : Byte) : beNat (bs ++ [b]) = beNat bs * 256 + b.toNat := by
  simp [beNat]

/-- The fold of `beNat` from any start value: the start value stands above the bytes. -/
theorem beNat_fold (bs : List Byte) (n : Nat) :
    bs.foldl (fun acc b => acc * 256 + b.toNat) n = n * 256 ^ bs.length + beNat bs := by
  induction bs generalizing n with
  | nil => simp
  | cons b bs ih =>
    have hb : beNat (b :: bs) = (0 * 256 + b.toNat) * 256 ^ bs.length + beNat bs := ih _
    rw [List.foldl_cons, ih, hb, List.length_cons, Nat.pow_succ]
    ring

theorem beNat_cons (b : Byte) (bs : List Byte) : beNat (b :: bs) = b.toNat * 256 ^ bs.length + beNat bs := by
  rw [beNat, List.foldl_cons, beNat_fold]
  simp

theorem beNat_lt (bs : List Byte) : beNat bs < 256 ^ bs.length := by
  induction bs with
  | nil => simp
  | cons b bs ih =>
    rw [beNat_cons, List.length_cons, Nat.pow_succ]
    have hb : b.toNat < 256 := b.isLt
    nlinarith

@[simp] theorem length_beBytes (n v : Nat) : (beBytes n v).length = n := by
  induction n with
  | zero => rfl
  | succ n ih => simp [beBytes, ih]

theorem beNat_beBytes (n v : Nat) : beNat (beBytes n v) = v % 256 ^ n := by
  induction n with
  | zero => simp [beBytes, Nat.mod_one]
  | succ n ih =>
    rw [beBytes, beNat_cons, ih, length_beBytes, BitVec.toNat_ofNat, Nat.pow_succ (n := 256), Nat.mod_mul,
      Nat.mul_comm, Nat.add_comm]

/-- The bytes of a number depend on its low `8 * n` bits alone. -/
theorem beBytes_mod (n v k : Nat) : beBytes n (v % 256 ^ (n + k)) = beBytes n v := by
  induction n generalizing k with
  | zero => rfl
  | succ n ih =>
    rw [beBytes, beBytes]
    congr 1
    · apply BitVec.eq_of_toNat_eq
      simp only [BitVec.toNat_ofNat]
      rw [show n + 1 + k = n + (k + 1) by ring, Nat.pow_add, Nat.mod_mul_right_div_self,
        Nat.mod_mod_of_dvd _ (Dvd.intro_left (256 ^ k) (pow_succ 256 k).symm)]
    · rw [show n + 1 + k = n + (k + 1) by ring]
      exact ih (k + 1)

theorem beBytes_beNat (bs : List Byte) : beBytes bs.length (beNat bs) = bs := by
  induction bs with
  | nil => rfl
  | cons b bs ih =>
    have hlt := beNat_lt bs
    have hpos : 0 < 256 ^ bs.length := by positivity
    rw [List.length_cons, beBytes, beNat_cons]
    congr 1
    · apply BitVec.eq_of_toNat_eq
      rw [BitVec.toNat_ofNat, Nat.mul_comm, Nat.mul_add_div hpos, Nat.div_eq_of_lt hlt, Nat.add_zero]
      exact Nat.mod_eq_of_lt b.isLt
    · rw [← beBytes_mod bs.length _ 0, Nat.add_zero, Nat.mul_comm, Nat.mul_add_mod,
        Nat.mod_eq_of_lt hlt]
      exact ih

/-- Byte `i` of a number, counted from the most significant. -/
theorem beBytes_getElem (n v i : Nat) (h : i < (beBytes n v).length) :
    (beBytes n v)[i] = BitVec.ofNat 8 (v / 256 ^ (n - 1 - i)) := by
  induction n generalizing i with
  | zero => simp at h
  | succ n ih =>
    cases i with
    | zero => simp [beBytes]
    | succ i =>
      simp only [beBytes, List.getElem_cons_succ]
      rw [ih]
      congr 3
      omega

end Sys2Proof
end

