-- ==== Sys2Proof/Laws/Decode.lean ====
section
/-! SUPPORT. The small lemmas of the record format: splitting and joining fields undo each other. -/

namespace Sys2Proof

theorem Record.ofNumber_number (r : Record) : Record.ofNumber r.number = r := by
  obtain ⟨op, sc, src, dst⟩ := r
  simp only [Record.ofNumber, Record.number, Record.mk.injEq]
  have e1 : BitVec.extractLsb' 72 8 (op ++ sc ++ src ++ dst) = op := by
    rw [BitVec.extractLsb'_append_eq_ite, dif_neg (by omega), BitVec.extractLsb'_append_eq_ite, dif_neg (by omega),
      BitVec.extractLsb'_append_eq_ite, dif_neg (by omega)]
    exact BitVec.extractLsb'_eq_self
  have e2 : BitVec.extractLsb' 64 8 (op ++ sc ++ src ++ dst) = sc := by
    rw [BitVec.extractLsb'_append_eq_ite, dif_neg (by omega), BitVec.extractLsb'_append_eq_ite, dif_neg (by omega),
      BitVec.extractLsb'_append_eq_ite, dif_pos (by omega), dif_pos (by omega)]
    exact BitVec.extractLsb'_eq_self
  have e3 : BitVec.extractLsb' 32 32 (op ++ sc ++ src ++ dst) = src := by
    rw [BitVec.extractLsb'_append_eq_ite, dif_neg (by omega), BitVec.extractLsb'_append_eq_ite, dif_pos (by omega),
      dif_pos (by omega)]
    exact BitVec.extractLsb'_eq_self
  have e4 : BitVec.extractLsb' 0 32 (op ++ sc ++ src ++ dst) = dst := by
    rw [BitVec.extractLsb'_append_eq_ite, dif_pos (by omega), dif_pos (by omega)]
    exact BitVec.extractLsb'_eq_self
  exact ⟨e1, e2, e3, e4⟩

theorem Record.number_ofNumber (rec : RecordWord) : (Record.ofNumber rec).number = rec := by
  apply BitVec.eq_of_getLsbD_eq
  intro i hi
  simp only [Record.ofNumber, Record.number, BitVec.getLsbD_append, BitVec.getLsbD_extractLsb']
  have h := hi
  by_cases h1 : i < 32
  · simp [h1]
  · by_cases h2 : i < 64
    · have a1 : i - 32 < 32 := by omega
      have a2 : 32 + (i - 32) = i := by omega
      simp [h1, a1, a2]
    · by_cases h3 : i < 72
      · have a1 : ¬ i - 32 < 32 := by omega
        have a2 : i - 32 - 32 < 8 := by omega
        have a3 : 64 + (i - 32 - 32) = i := by omega
        simp [h1, a1, a2, a3]
      · have a1 : ¬ i - 32 < 32 := by omega
        have a2 : ¬ i - 32 - 32 < 8 := by omega
        have a3 : i - 32 - 32 - 8 < 8 := by omega
        have a4 : 72 + (i - 32 - 32 - 8) = i := by omega
        simp [h1, a1, a2, a3, a4]

/-- The decoder on the number of a record is the decoder on its fields. -/
theorem decodeRecord_number {p : Config.Params} (r : Record) : decodeRecord r.number p = r.decode p := by
  rw [decodeRecord, Record.ofNumber_number]

@[simp] theorem regField_regWord (r : RegField) : regField (regWord r) = r := by
  apply BitVec.eq_of_toNat_eq
  simpa [regField, regWord] using r.isLt

/-! ### Size classes -/

variable (p : Config.Params)

theorem Config.defaults_wf : Config.defaults.wf = true := by decide

/-- Everything a size-class byte can select. -/
theorem SizeClass.ofByte_cases (b : Byte) :
    (b = Config.SC_BYTE ∧ SizeClass.ofByte b p = .byte) ∨ (b = p.SC_WORD ∧ SizeClass.ofByte b p = .word) ∨
    (b = p.SC_LONG ∧ SizeClass.ofByte b p = .long) ∨ (b = p.SC_CONST_BYTE ∧ SizeClass.ofByte b p = .constByte) ∨
    (b = p.SC_CONST_WORD ∧ SizeClass.ofByte b p = .constWord) ∨
    (b = p.SC_CONST_LONG ∧ SizeClass.ofByte b p = .constLong) ∨
    (b ∉ p.sizeBytes ∧ SizeClass.ofByte b p = .other b) := by
  unfold SizeClass.ofByte
  split_ifs <;> simp_all [Config.Params.sizeBytes]

theorem SizeClass.toByte_ofByte (b : Byte) : (SizeClass.ofByte b p).toByte p = b := by
  rcases SizeClass.ofByte_cases p b with ⟨h, e⟩ | ⟨h, e⟩ | ⟨h, e⟩ | ⟨h, e⟩ | ⟨h, e⟩ | ⟨h, e⟩ | ⟨h, e⟩ <;>
    rw [e] <;> first | exact h.symm | rfl

theorem SizeClass.wf_ofByte (b : Byte) : (SizeClass.ofByte b p).wf p = true := by
  rcases SizeClass.ofByte_cases p b with ⟨-, e⟩ | ⟨-, e⟩ | ⟨-, e⟩ | ⟨-, e⟩ | ⟨-, e⟩ | ⟨-, e⟩ | ⟨h, e⟩ <;>
    rw [e] <;> simp_all [SizeClass.wf]

/-- Each named byte selects its own class where the six differ, and a byte without a name selects itself. -/
theorem SizeClass.ofByte_toByte (hp : p.wf = true) (sc : SizeClass) (h : sc.wf p = true) :
    SizeClass.ofByte (sc.toByte p) p = sc := by
  simp only [Config.Params.wf, decide_eq_true_eq, Config.Params.sizeBytes, List.nodup_cons, List.mem_cons,
    List.not_mem_nil, or_false, not_or] at hp
  cases sc <;> simp only [SizeClass.wf, Config.Params.sizeBytes, List.contains_cons, SizeClass.toByte] at h ⊢ <;>
    unfold SizeClass.ofByte <;> split_ifs <;> simp_all

/-! ### Targets -/

theorem Target.wf_ofField (sc : SizeClass) (f : Word) (h : sc.wf p = true) : (Target.ofField sc f).wf p = true := by
  cases sc <;> simp_all [Target.ofField, Target.wf]

theorem Target.ofField_field (t : Target) (h : t.wf p = true) : Target.ofField t.sizeClass t.field = t := by
  cases t with
  | register r => simp [Target.sizeClass, Target.field, Target.ofField]
  | literal a => rfl
  | unaccepted sc f => cases sc <;> simp_all [Target.wf, Target.sizeClass, Target.field, Target.ofField]

theorem Target.wf_sizeClass (t : Target) (h : t.wf p = true) : t.sizeClass.wf p = true := by
  cases t <;> simp_all [Target.wf, Target.sizeClass, SizeClass.wf]

end Sys2Proof
end

