-- ==== Sys2Proof/Laws/Memory.lean ====
section
/-! SUPPORT. The laws of one byte store: read after write, and every operation keeps the canonical form. -/

namespace Sys2Proof.Machine

open Sys2Proof

/-! ### Reading -/

@[simp] theorem Memory.read_nil (a : Nat) : Memory.read [] a = Memory.unlisted := rfl

theorem Memory.read_cons (b : Nat) (v : Byte) (m : Memory) (a : Nat) :
    Memory.read ((b, v) :: m) a = if b = a then v else Memory.read m a := rfl

theorem Memory.read_eq_unlisted_of_not_mem (m : Memory) (a : Nat) (h : ∀ c ∈ m, c.1 ≠ a) :
    Memory.read m a = Memory.unlisted := by
  induction m with
  | nil => rfl
  | cons c m ih =>
    have hc : c.1 ≠ a := h c (by simp)
    have hm := ih fun d hd => h d (by simp [hd])
    obtain ⟨b, v⟩ := c
    simp [Memory.read_cons, hm, hc]

theorem Memory.read_drop (m : Memory) (a b : Nat) :
    Memory.read (Memory.drop m a) b = if b = a then Memory.unlisted else Memory.read m b := by
  induction m with
  | nil => simp [Memory.drop]
  | cons c m ih =>
    obtain ⟨e, v⟩ := c
    unfold Memory.drop at ih ⊢
    by_cases he : e = a
    · subst he
      by_cases hb : b = e
      · simpa [hb] using ih
      · have : e ≠ b := fun h => hb h.symm
        simpa [Memory.read_cons, this, hb] using ih
    · by_cases heb : e = b
      · subst heb
        simp [Memory.read_cons, he]
      · simpa [Memory.read_cons, he, heb] using ih

theorem Memory.read_place (m : Memory) (a : Nat) (v : Byte) (b : Nat) (h : ∀ c ∈ m, c.1 ≠ a) :
    Memory.read (Memory.place m a v) b = if b = a then v else Memory.read m b := by
  induction m with
  | nil => by_cases hb : a = b <;> simp [Memory.place, Memory.read_cons, hb, eq_comm]
  | cons c m ih =>
    obtain ⟨e, w⟩ := c
    have hea : e ≠ a := h (e, w) (by simp)
    have ihm := ih fun d hd => h d (by simp [hd])
    unfold Memory.place
    split
    · by_cases hb : b = a
      · simp [Memory.read_cons, hb]
      · have : a ≠ b := fun h => hb h.symm
        simp [Memory.read_cons, hb, this]
    · by_cases heb : e = b
      · subst heb
        simp [Memory.read_cons, hea]
      · simp [Memory.read_cons, heb, ihm]

theorem Memory.drop_fst_ne (m : Memory) (a : Nat) : ∀ c ∈ Memory.drop m a, c.1 ≠ a := by
  intro c hc
  simpa [Memory.drop] using (List.mem_filter.mp hc).2

/-- A read after a write: the byte written at its own address, the old byte at every other. It holds of every list. -/
theorem Memory.read_write (m : Memory) (a : Nat) (v : Byte) (b : Nat) :
    Memory.read (Memory.write m a v) b = if b = a then v else Memory.read m b := by
  unfold Memory.write
  split
  · next hv => rw [Memory.read_drop, hv]
  · rw [Memory.read_place _ _ _ _ (Memory.drop_fst_ne m a), Memory.read_drop]
    split <;> rfl

/-- A read after consecutive writes. -/
theorem Memory.read_writeBytes (m : Memory) (a : Nat) (bs : List Byte) (b : Nat) :
    Memory.read (Memory.writeBytes m a bs) b =
      if h : a ≤ b ∧ b - a < bs.length then bs[b - a]'h.2 else Memory.read m b := by
  induction bs generalizing m a with
  | nil => simp [Memory.writeBytes]
  | cons v bs ih =>
    rw [Memory.writeBytes, ih, Memory.read_write]
    by_cases hba : b = a
    · subst hba
      simp
    · by_cases hlt : a < b
      · obtain ⟨k, rfl⟩ : ∃ k, b = a + 1 + k := ⟨b - (a + 1), by omega⟩
        have h1 : a + 1 + k - (a + 1) = k := by omega
        have h2 : a + 1 + k - a = k + 1 := by omega
        have h3 : a ≤ a + 1 + k := by omega
        simp only [h1, h2, h3, hba, if_false, true_and, List.length_cons, Nat.add_lt_add_iff_right,
          List.getElem_cons_succ, Nat.le_add_right]
      · have h1 : ¬ a + 1 ≤ b := by omega
        have h2 : ¬ a ≤ b := by omega
        simp [h1, h2, hba]

theorem Memory.read_tabulate (f : Nat → Byte) (lo n a : Nat) :
    Memory.read (Memory.tabulate f lo n) a = if lo ≤ a ∧ a < lo + n then f a else Memory.unlisted := by
  induction n generalizing lo with
  | zero => simp [Memory.tabulate]
  | succ n ih =>
    unfold Memory.tabulate
    by_cases ha : lo = a
    · subst ha
      have h : ¬ lo + 1 ≤ lo := by omega
      split
      · next hf => rw [ih]; simp [hf]
      · simp [Memory.read_cons]
    · have h : (lo + 1 ≤ a ∧ a < lo + 1 + n) ↔ (lo ≤ a ∧ a < lo + (n + 1)) := by omega
      split
      · rw [ih]; simp only [h]
      · rw [Memory.read_cons, if_neg ha, ih]; simp only [h]

/-! ### The canonical form -/

@[simp] theorem Memory.wf_nil : Memory.wf [] := by simp [Memory.wf]

theorem Memory.wf_drop (m : Memory) (a : Nat) (h : Memory.wf m) : Memory.wf (Memory.drop m a) :=
  ⟨h.1.filter _, fun c hc => h.2 c (List.mem_of_mem_filter hc)⟩

theorem Memory.mem_place (m : Memory) (a : Nat) (v : Byte) (c : Host.Cell) :
    c ∈ Memory.place m a v ↔ c = (a, v) ∨ c ∈ m := by
  induction m with
  | nil => simp [Memory.place]
  | cons d m ih =>
    obtain ⟨e, w⟩ := d
    unfold Memory.place
    split
    · simp
    · simp only [List.mem_cons, ih]
      tauto

theorem Memory.wf_place (m : Memory) (a : Nat) (v : Byte) (h : Memory.wf m) (hv : v ≠ Memory.unlisted)
    (hne : ∀ c ∈ m, c.1 ≠ a) : Memory.wf (Memory.place m a v) := by
  refine ⟨?_, ?_⟩
  · replace h := h.1
    induction m with
    | nil => simp [Memory.place]
    | cons d m ih =>
      obtain ⟨e, w⟩ := d
      have hea : e ≠ a := hne (e, w) (by simp)
      rw [List.pairwise_cons] at h
      unfold Memory.place
      split
      · next hlt =>
        refine List.pairwise_cons.mpr ⟨?_, List.pairwise_cons.mpr h⟩
        intro c hc
        rcases List.mem_cons.mp hc with rfl | hc
        · exact hlt
        · exact Nat.lt_trans hlt (h.1 c hc)
      · next hnlt =>
        refine List.pairwise_cons.mpr ⟨?_, ih (fun c hc => hne c (by simp [hc])) h.2⟩
        intro c hc
        rcases (Memory.mem_place m a v c).mp hc with rfl | hc
        · simp only
          omega
        · exact h.1 c hc
  · intro c hc
    rcases (Memory.mem_place m a v c).mp hc with rfl | hc
    · exact hv
    · exact h.2 c hc

/-- A write keeps the canonical form. -/
theorem Memory.wf_write (m : Memory) (a : Nat) (v : Byte) (h : Memory.wf m) : Memory.wf (Memory.write m a v) := by
  unfold Memory.write
  split
  · exact Memory.wf_drop m a h
  · next hv => exact Memory.wf_place _ a v (Memory.wf_drop m a h) hv (Memory.drop_fst_ne m a)

/-- Consecutive writes keep the canonical form. -/
theorem Memory.wf_writeBytes (m : Memory) (a : Nat) (bs : List Byte) (h : Memory.wf m) :
    Memory.wf (Memory.writeBytes m a bs) := by
  induction bs generalizing m a with
  | nil => exact h
  | cons b bs ih => exact ih _ _ (Memory.wf_write m a b h)

theorem Memory.mem_tabulate (f : Nat → Byte) (lo n : Nat) (c : Host.Cell) (h : c ∈ Memory.tabulate f lo n) :
    lo ≤ c.1 ∧ c.1 < lo + n ∧ c.2 = f c.1 ∧ c.2 ≠ Memory.unlisted := by
  induction n generalizing lo with
  | zero => simp [Memory.tabulate] at h
  | succ n ih =>
    unfold Memory.tabulate at h
    split at h
    · have := ih _ h
      exact ⟨by omega, by omega, this.2.2⟩
    · next hf =>
      rcases List.mem_cons.mp h with rfl | h
      · exact ⟨Nat.le_refl _, by simp, rfl, hf⟩
      · have := ih _ h
        exact ⟨by omega, by omega, this.2.2⟩

/-- A filled store is canonical. -/
theorem Memory.wf_tabulate (f : Nat → Byte) (lo n : Nat) : Memory.wf (Memory.tabulate f lo n) := by
  refine ⟨?_, fun c hc => (Memory.mem_tabulate f lo n c hc).2.2.2⟩
  induction n generalizing lo with
  | zero => simp [Memory.tabulate]
  | succ n ih =>
    unfold Memory.tabulate
    split
    · exact ih _
    · refine List.pairwise_cons.mpr ⟨fun c hc => ?_, ih _⟩
      have := (Memory.mem_tabulate f _ _ c hc).1
      simp only
      omega

/-! ### The region -/

theorem Memory.within_write (lo hi : Nat) (m : Memory) (a : Nat) (v : Byte) (h : Memory.within lo hi m)
    (ha : lo ≤ a ∧ a < hi) : Memory.within lo hi (Memory.write m a v) := by
  have hd : Memory.within lo hi (Memory.drop m a) := fun c hc => h c (List.mem_of_mem_filter hc)
  unfold Memory.write
  split
  · exact hd
  · intro c hc
    rcases (Memory.mem_place _ a v c).mp hc with rfl | hc
    · exact ha
    · exact hd c hc

theorem Memory.within_writeBytes (lo hi : Nat) (m : Memory) (a : Nat) (bs : List Byte) (h : Memory.within lo hi m)
    (hlo : lo ≤ a) (hhi : a + bs.length ≤ hi) : Memory.within lo hi (Memory.writeBytes m a bs) := by
  induction bs generalizing m a with
  | nil => exact h
  | cons b bs ih =>
    rw [List.length_cons] at hhi
    exact ih _ _ (Memory.within_write lo hi m a b h ⟨hlo, by omega⟩) (by omega) (by omega)

theorem Memory.within_tabulate (f : Nat → Byte) (lo n : Nat) : Memory.within lo (lo + n) (Memory.tabulate f lo n) :=
  fun c hc => ⟨(Memory.mem_tabulate f lo n c hc).1, (Memory.mem_tabulate f lo n c hc).2.1⟩

end Sys2Proof.Machine
end

