-- ==== Sys2Proof/Laws/State.lean ====
section
/-! SUPPORT. What each update of the state does to each field, true by unfolding, so that no later proof unfolds one. -/

namespace Sys2Proof.Machine

open Sys2Proof

variable (s : State)

/-! ### setReg -/

@[simp] theorem setReg_pc (i : RegIdx) (v : Word) : (s.setReg i v).pc = s.pc := rfl
@[simp] theorem setReg_halted (i : RegIdx) (v : Word) : (s.setReg i v).halted = s.halted := rfl
@[simp] theorem setReg_fault (i : RegIdx) (v : Word) : (s.setReg i v).fault = s.fault := rfl
@[simp] theorem setReg_rom (i : RegIdx) (v : Word) : (s.setReg i v).rom = s.rom := rfl
@[simp] theorem setReg_ram (i : RegIdx) (v : Word) : (s.setReg i v).ram = s.ram := rfl
@[simp] theorem setReg_dbg (i : RegIdx) (v : Word) : (s.setReg i v).dbg = s.dbg := rfl
@[simp] theorem setReg_byte (i : RegIdx) (v : Word) (b : Nat) : (s.setReg i v).byte b = s.byte b := rfl
theorem setReg_x (i : RegIdx) (v : Word) : (s.setReg i v).x = s.x.set i v := rfl

/-- A register read after a register write. -/
theorem setReg_reg (i j : RegIdx) (v : Word) : (s.setReg i v).reg j = if j = i then v else s.reg j := by
  simp [State.setReg, State.reg, Vector.getElem_set, Fin.ext_iff, eq_comm]

/-! ### preAdvance and jumpTo -/

@[simp] theorem preAdvance_x : s.preAdvance.x = s.x := rfl
@[simp] theorem preAdvance_pc : s.preAdvance.pc = s.pc + 10 := rfl
@[simp] theorem preAdvance_halted : s.preAdvance.halted = s.halted := rfl
@[simp] theorem preAdvance_fault : s.preAdvance.fault = s.fault := rfl
@[simp] theorem preAdvance_rom : s.preAdvance.rom = s.rom := rfl
@[simp] theorem preAdvance_ram : s.preAdvance.ram = s.ram := rfl
@[simp] theorem preAdvance_dbg : s.preAdvance.dbg = s.dbg := rfl
@[simp] theorem preAdvance_reg (i : RegIdx) : s.preAdvance.reg i = s.reg i := rfl
@[simp] theorem preAdvance_byte (b : Nat) : s.preAdvance.byte b = s.byte b := rfl

@[simp] theorem jumpTo_x (t : Word) : (s.jumpTo t).x = s.x := rfl
@[simp] theorem jumpTo_pc (t : Word) : (s.jumpTo t).pc = t - 10 := rfl
@[simp] theorem jumpTo_halted (t : Word) : (s.jumpTo t).halted = s.halted := rfl
@[simp] theorem jumpTo_fault (t : Word) : (s.jumpTo t).fault = s.fault := rfl
@[simp] theorem jumpTo_rom (t : Word) : (s.jumpTo t).rom = s.rom := rfl
@[simp] theorem jumpTo_ram (t : Word) : (s.jumpTo t).ram = s.ram := rfl
@[simp] theorem jumpTo_dbg (t : Word) : (s.jumpTo t).dbg = s.dbg := rfl
@[simp] theorem jumpTo_reg (t : Word) (i : RegIdx) : (s.jumpTo t).reg i = s.reg i := rfl
@[simp] theorem jumpTo_byte (t : Word) (b : Nat) : (s.jumpTo t).byte b = s.byte b := rfl

/-! ### emit and halt -/

@[simp] theorem emit_x (v : Word) : (s.emit v).x = s.x := rfl
@[simp] theorem emit_pc (v : Word) : (s.emit v).pc = s.pc := rfl
@[simp] theorem emit_halted (v : Word) : (s.emit v).halted = s.halted := rfl
@[simp] theorem emit_fault (v : Word) : (s.emit v).fault = s.fault := rfl
@[simp] theorem emit_rom (v : Word) : (s.emit v).rom = s.rom := rfl
@[simp] theorem emit_ram (v : Word) : (s.emit v).ram = s.ram := rfl
@[simp] theorem emit_dbg (v : Word) : (s.emit v).dbg = s.dbg ++ [v] := rfl
@[simp] theorem emit_reg (v : Word) (i : RegIdx) : (s.emit v).reg i = s.reg i := rfl
@[simp] theorem emit_byte (v : Word) (b : Nat) : (s.emit v).byte b = s.byte b := rfl

@[simp] theorem halt_x : s.halt.x = s.x := rfl
@[simp] theorem halt_pc : s.halt.pc = s.pc := rfl
@[simp] theorem halt_halted : s.halt.halted = true := rfl
@[simp] theorem halt_fault : s.halt.fault = s.fault := rfl
@[simp] theorem halt_rom : s.halt.rom = s.rom := rfl
@[simp] theorem halt_ram : s.halt.ram = s.ram := rfl
@[simp] theorem halt_dbg : s.halt.dbg = s.dbg := rfl
@[simp] theorem halt_reg (i : RegIdx) : s.halt.reg i = s.reg i := rfl
@[simp] theorem halt_byte (b : Nat) : s.halt.byte b = s.byte b := rfl

/-! ### raise -/

@[simp] theorem raise_x (c : Cause) (op : Byte) : (s.raise c op).x = s.x := rfl
@[simp] theorem raise_pc (c : Cause) (op : Byte) : (s.raise c op).pc = s.pc := rfl
@[simp] theorem raise_halted (c : Cause) (op : Byte) : (s.raise c op).halted = s.halted := rfl
@[simp] theorem raise_fault (c : Cause) (op : Byte) :
    (s.raise c op).fault = ⟨c.kind.code, s.pc, op, c.addr⟩ := rfl
@[simp] theorem raise_rom (c : Cause) (op : Byte) : (s.raise c op).rom = s.rom := rfl
@[simp] theorem raise_ram (c : Cause) (op : Byte) : (s.raise c op).ram = s.ram := rfl
@[simp] theorem raise_dbg (c : Cause) (op : Byte) : (s.raise c op).dbg = s.dbg := rfl
@[simp] theorem raise_reg (c : Cause) (op : Byte) (i : RegIdx) : (s.raise c op).reg i = s.reg i := rfl
@[simp] theorem raise_byte (c : Cause) (op : Byte) (b : Nat) : (s.raise c op).byte b = s.byte b := rfl

/-! ### reset -/

@[simp] theorem reset_pc : State.reset.pc = 0xFFFFFFF6 := rfl
@[simp] theorem reset_halted : State.reset.halted = false := rfl
@[simp] theorem reset_fault : State.reset.fault = FaultStatus.clear := rfl
@[simp] theorem reset_rom : State.reset.rom = [] := rfl
@[simp] theorem reset_ram : State.reset.ram = [] := rfl
@[simp] theorem reset_dbg : State.reset.dbg = [] := rfl

/-- The reset memory is canonical. -/
theorem reset_memory_wf : Memory.wf State.reset.rom ∧ Memory.wf State.reset.ram := by decide

end Sys2Proof.Machine
end

