-- ==== Sys2Proof/Laws/Ops.lean ====
section
/-! SUPPORT. One lemma per shared operation that says once everything it can answer. -/

namespace Sys2Proof.Machine

open Sys2Proof

/-! ### Sequencing of checks -/

@[simp] theorem bind_ok {α β : Type} (a : α) (f : α → Except Cause β) : (Except.ok a >>= f) = f a := rfl

@[simp] theorem bind_error {α β : Type} (c : Cause) (f : α → Except Cause β) :
    ((Except.error c : Except Cause α) >>= f) = .error c := rfl

/-- A sequence succeeds exactly when its parts do. -/
theorem bind_eq_ok {α β : Type} (r : Except Cause α) (f : α → Except Cause β) (b : β) :
    (r >>= f) = .ok b ↔ ∃ a, r = .ok a ∧ f a = .ok b := by
  cases r with
  | ok a => simp
  | error c => simp

/-- A sequence fails with the first failure. -/
theorem bind_eq_error {α β : Type} (r : Except Cause α) (f : α → Except Cause β) (c : Cause) :
    (r >>= f) = .error c ↔ r = .error c ∨ ∃ a, r = .ok a ∧ f a = .error c := by
  cases r with
  | ok a => simp
  | error d => simp

/-! ### Operands -/

theorem register_ok (r : RegField) (d : RegIdx) (h : r.toNat = d.val) : register r = .ok d := by
  have hd : r.toNat < Config.NREGS := by rw [h]; exact d.isLt
  rw [register, dif_pos hd]
  simp only [h]

theorem register_error (r : RegField) (h : 16 ≤ r.toNat) : register r = .error { kind := .illegalRegister } := by
  have hr : ¬ r.toNat < Config.NREGS := by simpa [Config.NREGS] using h
  rw [register, dif_neg hr]

theorem register_eq_ok (r : RegField) (d : RegIdx) : register r = .ok d ↔ r.toNat = d.val := by
  constructor
  · intro h
    unfold register at h
    split at h
    · simp only [Except.ok.injEq] at h
      rw [← h]
    · cases h
  · exact register_ok r d

theorem register_eq_error (r : RegField) (c : Cause) :
    register r = .error c ↔ 16 ≤ r.toNat ∧ c = { kind := .illegalRegister } := by
  constructor
  · intro h
    unfold register at h
    split at h
    · cases h
    · next hr => exact ⟨by simpa [Config.NREGS] using hr, by cases h; rfl⟩
  · rintro ⟨h, rfl⟩
    exact register_error r h

@[simp] theorem width_byte : width .byte = .ok 1 := rfl
@[simp] theorem width_word : width .word = .ok 2 := rfl
@[simp] theorem width_long : width .long = .ok 4 := rfl
@[simp] theorem width_constByte : width .constByte = .error { kind := .illegalSize } := rfl
@[simp] theorem width_constWord : width .constWord = .error { kind := .illegalSize } := rfl
@[simp] theorem width_constLong : width .constLong = .error { kind := .illegalSize } := rfl
@[simp] theorem width_other (b : Byte) : width (.other b) = .error { kind := .illegalSize } := rfl

theorem width_eq_ok (sc : SizeClass) (n : Nat) (h : width sc = .ok n) :
    (sc = .byte ∧ n = 1) ∨ (sc = .word ∧ n = 2) ∨ (sc = .long ∧ n = 4) := by
  cases sc <;> simp_all

theorem width_eq_error (sc : SizeClass) (c : Cause) (h : width sc = .error c) :
    c = { kind := .illegalSize } ∧ sc ≠ .byte ∧ sc ≠ .word ∧ sc ≠ .long := by
  cases sc <;> simp_all

/-- Masking keeps the low `8 * n` bits as an unsigned number. -/
theorem and_mask (v : Word) (n : Nat) (h : n ≤ 4) : v &&& mask n = BitVec.ofNat 32 (v.toNat % 2 ^ (8 * n)) := by
  apply BitVec.eq_of_toNat_eq
  have hpos : 0 < 2 ^ (8 * n) := by positivity
  have hpow : 2 ^ (8 * n) ≤ 2 ^ 32 := Nat.pow_le_pow_right (by omega) (by omega)
  have hv := v.isLt
  have hmod : v.toNat % 2 ^ (8 * n) ≤ v.toNat := Nat.mod_le _ _
  rw [BitVec.toNat_and, mask, BitVec.toNat_ofNat, BitVec.toNat_ofNat, Nat.mod_eq_of_lt (by omega),
    Nat.mod_eq_of_lt (a := v.toNat % 2 ^ (8 * n)) (by omega), Nat.and_two_pow_sub_one_eq_mod]

@[simp] theorem accepted_register (r : RegField) : accepted (.register r) = .ok () := rfl
@[simp] theorem accepted_literal (a : Word) : accepted (.literal a) = .ok () := rfl
@[simp] theorem accepted_unaccepted (sc : SizeClass) (f : Word) :
    accepted (.unaccepted sc f) = .error { kind := .illegalSize } := rfl

theorem target_register (s : State) (r : RegField) (d : RegIdx) (h : r.toNat = d.val) :
    s.target (.register r) = .ok (s.reg d) := by
  simp [State.target, register_ok r d h]

@[simp] theorem target_literal (s : State) (a : Word) : s.target (.literal a) = .ok a := rfl

theorem target_illegal (s : State) (r : RegField) (h : 16 ≤ r.toNat) :
    s.target (.register r) = .error { kind := .illegalRegister } := by
  simp [State.target, register_error r h]

@[simp] theorem moveAddresses_direct (s : State) (src dst : Word) :
    s.moveAddresses .direct src dst = .ok (src, dst) := rfl

theorem moveAddresses_indirect (s : State) (src dst : Word) (i j : RegIdx) (hi : (regField src).toNat = i.val)
    (hj : (regField dst).toNat = j.val) : s.moveAddresses .registerIndirect src dst = .ok (s.reg i, s.reg j) := by
  simp [State.moveAddresses, register_ok _ i hi, register_ok _ j hj]

/-- A setting of `MOVE_ADDRESSING` raises only `IllegalRegisterFault` for the addresses of `move`. -/
theorem cause_of_moveAddresses {s : State} {m : Config.MoveAddressing} {src dst : Word} {c : Cause}
    (h : s.moveAddresses m src dst = .error c) : c = { kind := .illegalRegister } := by
  cases m with
  | direct => cases h
  | registerIndirect =>
    simp only [State.moveAddresses, bind_eq_error] at h
    rcases h with h | ⟨i, -, h | ⟨j, -, h⟩⟩
    · exact ((register_eq_error _ _).1 h).2
    · exact ((register_eq_error _ _).1 h).2
    · cases h

/-! ### Memory -/

theorem checkRange_ok (a : Word) (n : Nat) (h : a.toNat + n - 1 < Config.MEMSIZE) : checkRange a n = .ok () := by
  simp [checkRange, h]

theorem checkRange_error (a : Word) (n : Nat) (h : Config.MEMSIZE ≤ a.toNat + n - 1) :
    checkRange a n = .error { kind := .address, addr := a } := by
  simp [checkRange, h]

theorem checkWritable_ok (a : Word) (h : Config.ROMSIZE ≤ a.toNat) : checkWritable a = .ok () := by
  have h' : ¬ a.toNat < Config.ROMSIZE := by omega
  simp [checkWritable, h']

theorem checkWritable_error (a : Word) (h : a.toNat < Config.ROMSIZE) :
    checkWritable a = .error { kind := .memoryProtection, addr := a } := by
  simp [checkWritable, h]

@[simp] theorem length_bytes (s : State) (b n : Nat) : (s.bytes b n).length = n := by
  induction n generalizing b with
  | zero => rfl
  | succ n ih => simp [State.bytes, ih]

theorem bytes_getElem (s : State) (b n i : Nat) (h : i < (s.bytes b n).length) :
    (s.bytes b n)[i] = s.byte (b + i) := by
  induction n generalizing b i with
  | zero => simp [State.bytes] at h
  | succ n ih =>
    cases i with
    | zero => simp [State.bytes]
    | succ i =>
      simp only [State.bytes, List.getElem_cons_succ]
      rw [ih, show b + 1 + i = b + (i + 1) by omega]

/-- Consecutive bytes agree in states whose bytes agree there. -/
theorem bytes_congr (s t : State) (b n : Nat) (h : ∀ i < n, s.byte (b + i) = t.byte (b + i)) :
    s.bytes b n = t.bytes b n := by
  refine List.ext_getElem (by simp) fun i h1 h2 => ?_
  rw [bytes_getElem, bytes_getElem]
  exact h i (by simpa using h1)

theorem memRead_ok (s : State) (a : Word) (n : Nat) (h : a.toNat + n - 1 < Config.MEMSIZE) :
    s.memRead a n = .ok (beNat (s.bytes a.toNat n)) := by
  simp [State.memRead, checkRange_ok a n h]

theorem memRead_error (s : State) (a : Word) (n : Nat) (h : Config.MEMSIZE ≤ a.toNat + n - 1) :
    s.memRead a n = .error { kind := .address, addr := a } := by
  simp [State.memRead, checkRange_error a n h]

theorem memWrite_ok (s : State) (a : Word) (n v : Nat) (h1 : Config.ROMSIZE ≤ a.toNat)
    (h2 : a.toNat + n - 1 < Config.MEMSIZE) :
    s.memWrite a n v = .ok { s with ram := s.ram.writeBytes a.toNat (beBytes n v) } := by
  simp [State.memWrite, checkWritable_ok a h1, checkRange_ok a n h2]

theorem memWrite_protected (s : State) (a : Word) (n v : Nat) (h : a.toNat < Config.ROMSIZE) :
    s.memWrite a n v = .error { kind := .memoryProtection, addr := a } := by
  simp [State.memWrite, checkWritable_error a h]

theorem memWrite_outside (s : State) (a : Word) (n v : Nat) (h1 : Config.ROMSIZE ≤ a.toNat)
    (h2 : Config.MEMSIZE ≤ a.toNat + n - 1) : s.memWrite a n v = .error { kind := .address, addr := a } := by
  simp [State.memWrite, checkWritable_ok a h1, checkRange_error a n h2]

/-- Everything a write can answer. -/
theorem memWrite_cases (s : State) (a : Word) (n v : Nat) :
    (a.toNat < Config.ROMSIZE ∧ s.memWrite a n v = .error { kind := .memoryProtection, addr := a }) ∨
    (Config.ROMSIZE ≤ a.toNat ∧ Config.MEMSIZE ≤ a.toNat + n - 1 ∧
      s.memWrite a n v = .error { kind := .address, addr := a }) ∨
    (Config.ROMSIZE ≤ a.toNat ∧ a.toNat + n - 1 < Config.MEMSIZE ∧
      s.memWrite a n v = .ok { s with ram := s.ram.writeBytes a.toNat (beBytes n v) }) := by
  by_cases h1 : a.toNat < Config.ROMSIZE
  · exact .inl ⟨h1, memWrite_protected s a n v h1⟩
  · have h1' : Config.ROMSIZE ≤ a.toNat := by omega
    by_cases h2 : Config.MEMSIZE ≤ a.toNat + n - 1
    · exact .inr (.inl ⟨h1', h2, memWrite_outside s a n v h1' h2⟩)
    · exact .inr (.inr ⟨h1', by omega, memWrite_ok s a n v h1' (by omega)⟩)

/-- A byte after bytes were written to RAM from `a` on. -/
theorem byte_ram_writeBytes (s : State) (a : Nat) (bs : List Byte) (ha : Config.ROMSIZE ≤ a) (b : Nat) :
    ({ s with ram := s.ram.writeBytes a bs } : State).byte b =
      if h : a ≤ b ∧ b - a < bs.length then bs[b - a]'h.2 else s.byte b := by
  unfold State.byte
  by_cases hb : b < Config.ROMSIZE
  · have h : ¬ (a ≤ b ∧ b - a < bs.length) := by omega
    rw [if_pos hb, dif_neg h, if_pos hb]
  · rw [if_neg hb, Memory.read_writeBytes, if_neg hb]

/-- A successful write keeps RAM canonical and inside its region. -/
theorem memWrite_keeps_ram (s t : State) (a : Word) (n v : Nat) (h : s.memWrite a n v = .ok t)
    (hwf : Memory.wf s.ram) (hin : Memory.within Config.ROMSIZE Config.MEMSIZE s.ram) :
    Memory.wf t.ram ∧ Memory.within Config.ROMSIZE Config.MEMSIZE t.ram := by
  rcases memWrite_cases s a n v with ⟨-, h'⟩ | ⟨-, -, h'⟩ | ⟨h1, h2, h'⟩
  · rw [h'] at h; cases h
  · rw [h'] at h; cases h
  · rw [h', Except.ok.injEq] at h
    subst h
    exact ⟨Memory.wf_writeBytes _ _ _ hwf,
      Memory.within_writeBytes _ _ _ _ _ hin h1 (by rw [length_beBytes]; omega)⟩

/-! ### The end of an instruction -/

@[simp] theorem finish_ok (s t : State) (i : Instr) : s.finish i (.ok t) = .next t := rfl

@[simp] theorem finish_error (s : State) (i : Instr) (c : Cause) :
    s.finish i (.error c) = .next (s.raise c i.opcode) := rfl

/-- Everything `finish` can answer: the instruction's effects, or its first fault taken. -/
theorem finish_eq_next (s t : State) (i : Instr) (r : Except Cause State) (h : s.finish i r = .next t) :
    r = .ok t ∨ ∃ c, r = .error c ∧ t = s.raise c i.opcode := by
  cases r with
  | ok u => simp at h; exact .inl (by rw [h])
  | error c => simp at h; exact .inr ⟨c, rfl, h.symm⟩

/-! ### Status -/

theorem stopped_eq_true (s : State) : s.stopped = true ↔ s.halted = true ∨ s.fault.FAULT_KIND ≠ 0x00 := by
  simp [State.stopped]

theorem stopped_eq_false (s : State) : s.stopped = false ↔ s.halted = false ∧ s.fault.FAULT_KIND = 0x00 := by
  simp [State.stopped]

theorem isZero_eq_true (v : Word) : isZero v = true ↔ v = 0 := by simp [isZero]

theorem code_ne_zero (k : Fault) : k.code ≠ 0x00 := by cases k <;> decide

end Sys2Proof.Machine
end

