-- ==== Sys2Proof/Laws/Fetch.lean ====
section
/-! SUPPORT. What a fetch can answer, and what placing a record does. -/

namespace Sys2Proof.Machine

open Sys2Proof

theorem fetch_ok (s : State) (h : s.pc.toNat + 9 < Config.MEMSIZE) :
    s.fetch = .ok (BitVec.ofNat 80 (beNat (s.bytes s.pc.toNat 10))) := by
  have h' : s.pc.toNat + Config.RECORD_SIZE - 1 < Config.MEMSIZE := by simpa [Config.RECORD_SIZE] using h
  rw [State.fetch, memRead_ok s s.pc _ h']
  rfl

theorem fetch_error (s : State) (h : Config.MEMSIZE ≤ s.pc.toNat + 9) :
    s.fetch = .error { kind := .address, addr := s.pc } := by
  have h' : Config.MEMSIZE ≤ s.pc.toNat + Config.RECORD_SIZE - 1 := by simpa [Config.RECORD_SIZE] using h
  simp [State.fetch, memRead_error s s.pc _ h']

/-- Everything a fetch with decoding can answer. -/
theorem fetchInstr_cases (s : State) (p : Config.Params) :
    (Config.MEMSIZE ≤ s.pc.toNat + 9 ∧ s.fetchInstr p = .error ({ kind := .address, addr := s.pc }, 0x00)) ∨
    (∃ rec u, s.fetch = .ok rec ∧ decodeRecord rec p = .error u ∧
      s.fetchInstr p = .error ({ kind := .unknownOpcode }, u.opcode)) ∨
    (∃ rec i, s.fetch = .ok rec ∧ decodeRecord rec p = .ok i ∧ s.fetchInstr p = .ok i) := by
  by_cases h : Config.MEMSIZE ≤ s.pc.toNat + 9
  · exact .inl ⟨h, by simp [State.fetchInstr, fetch_error s h]⟩
  · have hf := fetch_ok s (by omega)
    cases hd : decodeRecord (BitVec.ofNat 80 (beNat (s.bytes s.pc.toNat 10))) p with
    | error u => exact .inr (.inl ⟨_, u, hf, hd, by simp [State.fetchInstr, hf, hd]⟩)
    | ok i => exact .inr (.inr ⟨_, i, hf, hd, by simp [State.fetchInstr, hf, hd]⟩)

/-! ### Placing a record -/

@[simp] theorem poke_x (s : State) (a : Nat) (v : Byte) : (s.poke a v).x = s.x := by
  unfold State.poke; split <;> rfl
@[simp] theorem poke_pc (s : State) (a : Nat) (v : Byte) : (s.poke a v).pc = s.pc := by
  unfold State.poke; split <;> rfl
@[simp] theorem poke_halted (s : State) (a : Nat) (v : Byte) : (s.poke a v).halted = s.halted := by
  unfold State.poke; split <;> rfl
@[simp] theorem poke_fault (s : State) (a : Nat) (v : Byte) : (s.poke a v).fault = s.fault := by
  unfold State.poke; split <;> rfl
@[simp] theorem poke_dbg (s : State) (a : Nat) (v : Byte) : (s.poke a v).dbg = s.dbg := by
  unfold State.poke; split <;> rfl

theorem poke_byte (s : State) (a : Nat) (v : Byte) (b : Nat) :
    (s.poke a v).byte b = if b = a then v else s.byte b := by
  by_cases ha : a < Config.ROMSIZE <;> by_cases hb : b < Config.ROMSIZE <;>
    simp only [State.poke, State.byte, ha, hb, if_true, if_false, Memory.read_write]
  · rw [if_neg (by omega)]
  · rw [if_neg (by omega)]

@[simp] theorem pokeBytes_x (s : State) (a : Nat) (bs : List Byte) : (s.pokeBytes a bs).x = s.x := by
  induction bs generalizing s a with
  | nil => rfl
  | cons b bs ih => simp [State.pokeBytes, ih]
@[simp] theorem pokeBytes_pc (s : State) (a : Nat) (bs : List Byte) : (s.pokeBytes a bs).pc = s.pc := by
  induction bs generalizing s a with
  | nil => rfl
  | cons b bs ih => simp [State.pokeBytes, ih]
@[simp] theorem pokeBytes_halted (s : State) (a : Nat) (bs : List Byte) :
    (s.pokeBytes a bs).halted = s.halted := by
  induction bs generalizing s a with
  | nil => rfl
  | cons b bs ih => simp [State.pokeBytes, ih]
@[simp] theorem pokeBytes_fault (s : State) (a : Nat) (bs : List Byte) : (s.pokeBytes a bs).fault = s.fault := by
  induction bs generalizing s a with
  | nil => rfl
  | cons b bs ih => simp [State.pokeBytes, ih]
@[simp] theorem pokeBytes_dbg (s : State) (a : Nat) (bs : List Byte) : (s.pokeBytes a bs).dbg = s.dbg := by
  induction bs generalizing s a with
  | nil => rfl
  | cons b bs ih => simp [State.pokeBytes, ih]

/-- A byte after consecutive bytes were placed from `a` on. -/
theorem pokeBytes_byte (s : State) (a : Nat) (bs : List Byte) (b : Nat) :
    (s.pokeBytes a bs).byte b = if h : a ≤ b ∧ b - a < bs.length then bs[b - a]'h.2 else s.byte b := by
  induction bs generalizing s a with
  | nil => simp [State.pokeBytes]
  | cons v bs ih =>
    rw [State.pokeBytes, ih, poke_byte]
    by_cases hba : b = a
    · subst hba
      simp
    · by_cases hlt : a < b
      · obtain ⟨k, rfl⟩ : ∃ k, b = a + 1 + k := ⟨b - (a + 1), by omega⟩
        have h1 : a + 1 + k - (a + 1) = k := by omega
        have h2 : a + 1 + k - a = k + 1 := by omega
        have h3 : a ≤ a + 1 + k := by omega
        simp only [h1, h2, h3, hba, if_false, true_and, List.length_cons, Nat.add_lt_add_iff_right,
          List.getElem_cons_succ, Nat.le_add_right]
      · have h1 : ¬ a + 1 ≤ b := by omega
        have h2 : ¬ a ≤ b := by omega
        simp [h1, h2, hba]

/-- Placed bytes are read back. -/
theorem bytes_pokeBytes (s : State) (a : Nat) (bs : List Byte) : (s.pokeBytes a bs).bytes a bs.length = bs := by
  refine List.ext_getElem (by simp) fun i h1 h2 => ?_
  rw [bytes_getElem, pokeBytes_byte]
  have h : a ≤ a + i ∧ a + i - a < bs.length := ⟨by omega, by omega⟩
  rw [dif_pos h]
  congr 1
  omega

/-- Placing a byte keeps both stores canonical. -/
theorem poke_keeps_wf (s : State) (a : Nat) (v : Byte) (h : Memory.wf s.rom ∧ Memory.wf s.ram) :
    Memory.wf (s.poke a v).rom ∧ Memory.wf (s.poke a v).ram := by
  unfold State.poke
  split
  · exact ⟨Memory.wf_write _ _ _ h.1, h.2⟩
  · exact ⟨h.1, Memory.wf_write _ _ _ h.2⟩

/-- Placing bytes keeps both stores canonical. -/
theorem pokeBytes_keeps_wf (s : State) (a : Nat) (bs : List Byte) (h : Memory.wf s.rom ∧ Memory.wf s.ram) :
    Memory.wf (s.pokeBytes a bs).rom ∧ Memory.wf (s.pokeBytes a bs).ram := by
  induction bs generalizing s a with
  | nil => exact h
  | cons b bs ih => exact ih _ _ (poke_keeps_wf s a b h)

end Sys2Proof.Machine
end

