-- ==== Sys2Proof/Laws/Effects.lean ====
section
/-! SUPPORT. Everything an instruction can do, and everything a step can do, said once. -/

namespace Sys2Proof.Machine

open Sys2Proof

/-! ### Which faults the checks raise -/

theorem cause_of_register {r : RegField} {c : Cause} (h : register r = .error c) : c = ⟨.illegalRegister, 0⟩ :=
  ((register_eq_error _ _).1 h).2

theorem cause_of_width {sc : SizeClass} {c : Cause} (h : width sc = .error c) : c = ⟨.illegalSize, 0⟩ :=
  (width_eq_error _ _ h).1

theorem mem_sizeWidths {sc : SizeClass} {n : Nat} (h : width sc = .ok n) : (sc, n) ∈ sizeWidths := by
  rcases width_eq_ok _ _ h with ⟨rfl, rfl⟩ | ⟨rfl, rfl⟩ | ⟨rfl, rfl⟩ <;> decide

theorem cause_of_accepted {t : Target} {c : Cause} (h : accepted t = .error c) : c = ⟨.illegalSize, 0⟩ := by
  cases t <;> simp at h; exact h.symm

theorem cause_of_target {s : State} {t : Target} {c : Cause} (h : s.target t = .error c) :
    c = ⟨.illegalSize, 0⟩ ∨ c = ⟨.illegalRegister, 0⟩ := by
  cases t with
  | register r =>
    simp only [State.target, bind_eq_error] at h
    rcases h with h | ⟨a, -, h⟩
    · exact .inr (cause_of_register h)
    · cases h
  | literal a => cases h
  | unaccepted sc f => cases h; exact .inl rfl

theorem cause_of_memRead {s : State} {a : Word} {n : Nat} {c : Cause} (h : s.memRead a n = .error c) :
    c = ⟨.address, a⟩ := by
  by_cases hr : Config.MEMSIZE ≤ a.toNat + n - 1
  · rw [memRead_error s a n hr] at h; cases h; rfl
  · rw [memRead_ok s a n (by omega)] at h; cases h

theorem cause_of_checkWritable {a : Word} {c : Cause} (h : checkWritable a = .error c) : c = ⟨.memoryProtection, a⟩ := by
  unfold checkWritable at h; split at h <;> cases h; rfl

theorem cause_of_memWrite {s : State} {a : Word} {n v : Nat} {c : Cause} (h : s.memWrite a n v = .error c) :
    c = ⟨.address, a⟩ ∨ c = ⟨.memoryProtection, a⟩ := by
  rcases memWrite_cases s a n v with ⟨-, h'⟩ | ⟨-, -, h'⟩ | ⟨-, -, h'⟩ <;> rw [h'] at h <;> cases h <;> simp

theorem combine_cases {s t : State} {rs rd : RegField} {f : Word → Word → Word} (h : s.combine rs rd f = .ok t) :
    ∃ d v, rd.toNat = d.val ∧ t = s.setReg d v := by
  simp only [State.combine, bind_eq_ok, register_eq_ok] at h
  obtain ⟨i, -, d, hd, h⟩ := h
  cases h
  exact ⟨d, _, hd, rfl⟩

theorem cause_of_combine {s : State} {rs rd : RegField} {f : Word → Word → Word} {c : Cause}
    (h : s.combine rs rd f = .error c) : c = ⟨.illegalRegister, 0⟩ := by
  simp only [State.combine, bind_eq_error] at h
  rcases h with h | ⟨i, -, h | ⟨d, -, h⟩⟩
  · exact cause_of_register h
  · exact cause_of_register h
  · cases h

theorem jumpWhen_cases {s t : State} {p : Word → Bool} {rs : RegField} {tg : Target} (h : s.jumpWhen p rs tg = .ok t) :
    t = s ∨ ∃ a, t = s.jumpTo a := by
  simp only [State.jumpWhen, bind_eq_ok] at h
  obtain ⟨-, -, i, -, a, -, h⟩ := h
  split at h <;> cases h
  · exact .inr ⟨_, rfl⟩
  · exact .inl rfl

theorem cause_of_jumpWhen {s : State} {p : Word → Bool} {rs : RegField} {tg : Target} {c : Cause}
    (h : s.jumpWhen p rs tg = .error c) : c = ⟨.illegalSize, 0⟩ ∨ c = ⟨.illegalRegister, 0⟩ := by
  simp only [State.jumpWhen, bind_eq_error] at h
  rcases h with h | ⟨_, _, h | ⟨_, _, h | ⟨_, _, h⟩⟩⟩
  · exact .inl (cause_of_accepted h)
  · exact .inr (cause_of_register h)
  · exact cause_of_target h
  · split at h <;> cases h

/-! ### What an instruction can do -/

/-- Every way an instruction can change the state under a setting of `MOVE_ADDRESSING`. -/
inductive Effect (m : Config.MoveAddressing) (i : Instr) (s : State) : State → Prop
  | oneRegister (d : RegIdx) (v : Word) (hd : writesRegister i d = true) (hj : isJump i = false)
      (hs : storesTo i s m = none) (hh : i ≠ .hcf) : Effect m i s (s.setReg d v)
  | twoRegisters (d e : RegIdx) (v w : Word) (hd : writesRegister i d = true) (he : writesRegister i e = true)
      (hj : isJump i = false) (hs : storesTo i s m = none) (hh : i ≠ .hcf) : Effect m i s ((s.setReg d v).setReg e w)
  | redirect (a : Word) (hj : isJump i = true) (hs : storesTo i s m = none) : Effect m i s (s.jumpTo a)
  | nothing (hh : i ≠ .hcf) : Effect m i s s
  | halts (hh : i = .hcf) : Effect m i s s.halt
  | emits (rd : RegField) (d : RegIdx) (hi : i = .debug rd) (hd : rd.toNat = d.val) : Effect m i s (s.emit (s.reg d))
  | writesRam (a : Word) (sc : SizeClass) (n v : Nat) (hs : storesTo i s m = some (a, sc)) (hn : (sc, n) ∈ sizeWidths)
      (hlo : Config.ROMSIZE ≤ a.toNat) (hhi : a.toNat + n - 1 < Config.MEMSIZE) (hj : isJump i = false) (hh : i ≠ .hcf) :
      Effect m i s { s with ram := s.ram.writeBytes a.toNat (beBytes n v) }
  | faults (k : Fault) (a : Word) (hk : k ≠ .unknownOpcode)
      (h0 : k ≠ .memoryProtection → k ≠ .address → a = 0)
      (h1 : k = .memoryProtection → ∃ sc, storesTo i s m = some (a, sc))
      (h4 : k = .address → ∃ sc, storesTo i s m = some (a, sc) ∨ loadsFrom i s m = some (a, sc))
      (hh : i ≠ .hcf) : Effect m i s (s.raise ⟨k, a⟩ i.opcode)

/-- The faults that the checks of an instruction raise. -/
theorem Effect.of_cause {m : Config.MoveAddressing} {i : Instr} {s : State} {c : Cause} (hh : i ≠ .hcf)
    (h : c = ⟨.illegalSize, 0⟩ ∨ c = ⟨.illegalRegister, 0⟩ ∨ c = ⟨.arithmetic, 0⟩ ∨
      (∃ a sc, c = ⟨.address, a⟩ ∧ (storesTo i s m = some (a, sc) ∨ loadsFrom i s m = some (a, sc))) ∨
      (∃ a sc, c = ⟨.memoryProtection, a⟩ ∧ storesTo i s m = some (a, sc))) : Effect m i s (s.raise c i.opcode) := by
  rcases h with rfl | rfl | rfl | ⟨a, sc, rfl, hs⟩ | ⟨a, sc, rfl, hs⟩
  · exact .faults _ _ (by decide) (fun _ _ => rfl) (by simp) (by simp) hh
  · exact .faults _ _ (by decide) (fun _ _ => rfl) (by simp) (by simp) hh
  · exact .faults _ _ (by decide) (fun _ _ => rfl) (by simp) (by simp) hh
  · exact .faults _ _ (by decide) (by simp) (by simp) (fun _ => ⟨sc, hs⟩) hh
  · exact .faults _ _ (by decide) (by simp) (fun _ => ⟨sc, hs⟩) (by simp) hh

/-- Everything `execWith` can do. -/
theorem execWith_cases (p : Config.Params) (i : Instr) (s t : State) (h : execWith p i s = .next t) :
    Effect p.MOVE_ADDRESSING i s t := by
  cases i with
  | hcf => cases h; exact .halts rfl
  | add => cases h; exact .oneRegister _ _ rfl rfl rfl (by simp)
  | sub => cases h; exact .oneRegister _ _ rfl rfl rfl (by simp)
  | mul => cases h; exact .oneRegister _ _ rfl rfl rfl (by simp)
  | div =>
    rcases finish_eq_next _ _ _ _ h with h | ⟨c, h2, rfl⟩
    · split at h <;> cases h; exact .oneRegister _ _ rfl rfl rfl (by simp)
    · split at h2 <;> cases h2; exact .of_cause (by simp) (by simp)
  | loadi sc lit rd =>
    rcases finish_eq_next _ _ _ _ h with h | ⟨c, h2, rfl⟩
    · simp only [bind_eq_ok, register_eq_ok] at h
      obtain ⟨n, hn, d, hd, h⟩ := h; cases h
      exact .oneRegister _ _ (by simp [writesRegister, hd]) rfl rfl (by simp)
    · replace h := h2
      simp only [bind_eq_error] at h
      refine .of_cause (by simp) ?_
      rcases h with h | ⟨_, _, h | ⟨_, _, h⟩⟩
      · exact .inl (cause_of_width h)
      · exact .inr (.inl (cause_of_register h))
      · cases h
  | load sc a rd =>
    rcases finish_eq_next _ _ _ _ h with h | ⟨c, h2, rfl⟩
    · simp only [bind_eq_ok, register_eq_ok] at h
      obtain ⟨n, hn, d, hd, v, hv, h⟩ := h; cases h
      exact .oneRegister _ _ (by simp [writesRegister, hd]) rfl rfl (by simp)
    · replace h := h2
      simp only [bind_eq_error] at h
      refine .of_cause (by simp) ?_
      rcases h with h | ⟨_, _, h | ⟨_, _, h | ⟨_, _, h⟩⟩⟩
      · exact .inl (cause_of_width h)
      · exact .inr (.inl (cause_of_register h))
      · exact .inr (.inr (.inr (.inl ⟨_, _, cause_of_memRead h, .inr rfl⟩)))
      · cases h
  | store sc rs a =>
    rcases finish_eq_next _ _ _ _ h with h | ⟨c, h2, rfl⟩
    · simp only [bind_eq_ok, register_eq_ok] at h
      obtain ⟨n, hn, d, hd, h⟩ := h
      rcases memWrite_cases s a n (s.reg d).toNat with ⟨-, h'⟩ | ⟨-, -, h'⟩ | ⟨h1, h2, h'⟩ <;> rw [h'] at h <;> cases h
      exact .writesRam a sc n _ rfl (mem_sizeWidths hn) h1 h2 rfl (by simp)
    · replace h := h2
      simp only [bind_eq_error] at h
      refine .of_cause (by simp) ?_
      rcases h with h | ⟨_, _, h | ⟨_, _, h⟩⟩
      · exact .inl (cause_of_width h)
      · exact .inr (.inl (cause_of_register h))
      · rcases cause_of_memWrite h with h | h
        · exact .inr (.inr (.inr (.inl ⟨_, _, h, .inl rfl⟩)))
        · exact .inr (.inr (.inr (.inr ⟨_, _, h, rfl⟩)))
  | move sc src dst =>
    rcases finish_eq_next _ _ _ _ h with h | ⟨c, h2, rfl⟩
    · simp only [bind_eq_ok] at h
      obtain ⟨n, hn, ⟨sa, da⟩, ha, -, -, v, -, h⟩ := h
      simp only at h
      rcases memWrite_cases s da n v with ⟨-, h'⟩ | ⟨-, -, h'⟩ | ⟨h1, h2, h'⟩ <;> rw [h'] at h <;> cases h
      exact .writesRam da sc n _ (by simp [storesTo, ha]) (mem_sizeWidths hn) h1 h2 rfl (by simp)
    · simp only [bind_eq_error] at h2
      refine .of_cause (by simp) ?_
      rcases h2 with h | ⟨n, -, h | ⟨⟨sa, da⟩, ha, h⟩⟩
      · exact .inl (cause_of_width h)
      · exact .inr (.inl (cause_of_moveAddresses h))
      have hst : storesTo (.move sc src dst) s p.MOVE_ADDRESSING = some (da, sc) := by simp [storesTo, ha]
      have hld : loadsFrom (.move sc src dst) s p.MOVE_ADDRESSING = some (sa, sc) := by simp [loadsFrom, ha]
      rcases h with h | ⟨-, -, h | ⟨v, -, h⟩⟩
      · exact .inr (.inr (.inr (.inr ⟨_, _, cause_of_checkWritable h, hst⟩)))
      · exact .inr (.inr (.inr (.inl ⟨_, _, cause_of_memRead h, .inr hld⟩)))
      · rcases cause_of_memWrite h with h | h
        · exact .inr (.inr (.inr (.inl ⟨_, _, h, .inl hst⟩)))
        · exact .inr (.inr (.inr (.inr ⟨_, _, h, hst⟩)))
  | swap rd =>
    rcases finish_eq_next _ _ _ _ h with h | ⟨c, h2, rfl⟩
    · simp only [bind_eq_ok, register_eq_ok] at h
      obtain ⟨d, hd, h⟩ := h; cases h
      exact .oneRegister _ _ (by simp [writesRegister, hd]) rfl rfl (by simp)
    · replace h := h2
      simp only [bind_eq_error] at h
      refine .of_cause (by simp) ?_
      rcases h with h | ⟨_, _, h⟩
      · exact .inr (.inl (cause_of_register h))
      · cases h
  | exchange rs rd =>
    rcases finish_eq_next _ _ _ _ h with h | ⟨c, h2, rfl⟩
    · simp only [bind_eq_ok, register_eq_ok] at h
      obtain ⟨i, hi, d, hd, h⟩ := h; cases h
      exact .twoRegisters _ _ _ _ (by simp [writesRegister, hi]) (by simp [writesRegister, hd]) rfl rfl (by simp)
    · replace h := h2
      simp only [bind_eq_error] at h
      refine .of_cause (by simp) ?_
      rcases h with h | ⟨_, _, h | ⟨_, _, h⟩⟩
      · exact .inr (.inl (cause_of_register h))
      · exact .inr (.inl (cause_of_register h))
      · cases h
  | copy rs rd =>
    rcases finish_eq_next _ _ _ _ h with h | ⟨c, h2, rfl⟩
    · simp only [bind_eq_ok, register_eq_ok] at h
      obtain ⟨i, hi, d, hd, h⟩ := h; cases h
      exact .oneRegister _ _ (by simp [writesRegister, hd]) rfl rfl (by simp)
    · replace h := h2
      simp only [bind_eq_error] at h
      refine .of_cause (by simp) ?_
      rcases h with h | ⟨_, _, h | ⟨_, _, h⟩⟩
      · exact .inr (.inl (cause_of_register h))
      · exact .inr (.inl (cause_of_register h))
      · cases h
  | not rs rd =>
    rcases finish_eq_next _ _ _ _ h with h | ⟨c, h2, rfl⟩
    · obtain ⟨d, v, hd, rfl⟩ := combine_cases h
      exact .oneRegister _ _ (by simp [writesRegister, hd]) rfl rfl (by simp)
    · exact .of_cause (by simp) (.inr (.inl (cause_of_combine h2)))
  | and rs rd =>
    rcases finish_eq_next _ _ _ _ h with h | ⟨c, h2, rfl⟩
    · obtain ⟨d, v, hd, rfl⟩ := combine_cases h
      exact .oneRegister _ _ (by simp [writesRegister, hd]) rfl rfl (by simp)
    · exact .of_cause (by simp) (.inr (.inl (cause_of_combine h2)))
  | or rs rd =>
    rcases finish_eq_next _ _ _ _ h with h | ⟨c, h2, rfl⟩
    · obtain ⟨d, v, hd, rfl⟩ := combine_cases h
      exact .oneRegister _ _ (by simp [writesRegister, hd]) rfl rfl (by simp)
    · exact .of_cause (by simp) (.inr (.inl (cause_of_combine h2)))
  | xor rs rd =>
    rcases finish_eq_next _ _ _ _ h with h | ⟨c, h2, rfl⟩
    · obtain ⟨d, v, hd, rfl⟩ := combine_cases h
      exact .oneRegister _ _ (by simp [writesRegister, hd]) rfl rfl (by simp)
    · exact .of_cause (by simp) (.inr (.inl (cause_of_combine h2)))
  | jump tg =>
    rcases finish_eq_next _ _ _ _ h with h | ⟨c, h2, rfl⟩
    · simp only [bind_eq_ok] at h
      obtain ⟨_, _, a, _, h⟩ := h; cases h
      exact .redirect _ rfl rfl
    · replace h := h2
      simp only [bind_eq_error] at h
      refine .of_cause (by simp) ?_
      rcases h with h | ⟨_, _, h | ⟨_, _, h⟩⟩
      · exact .inl (cause_of_accepted h)
      · rcases cause_of_target h with h | h
        · exact .inl h
        · exact .inr (.inl h)
      · cases h
  | jeqz rs tg =>
    rcases finish_eq_next _ _ _ _ h with h | ⟨c, h2, rfl⟩
    · rcases jumpWhen_cases h with rfl | ⟨a, rfl⟩
      · exact .nothing (by simp)
      · exact .redirect _ rfl rfl
    · refine .of_cause (by simp) ?_
      rcases cause_of_jumpWhen h2 with h | h
      · exact .inl h
      · exact .inr (.inl h)
  | jnez rs tg =>
    rcases finish_eq_next _ _ _ _ h with h | ⟨c, h2, rfl⟩
    · rcases jumpWhen_cases h with rfl | ⟨a, rfl⟩
      · exact .nothing (by simp)
      · exact .redirect _ rfl rfl
    · refine .of_cause (by simp) ?_
      rcases cause_of_jumpWhen h2 with h | h
      · exact .inl h
      · exact .inr (.inl h)
  | debug rd =>
    rcases finish_eq_next _ _ _ _ h with h | ⟨c, h2, rfl⟩
    · simp only [bind_eq_ok, register_eq_ok] at h
      obtain ⟨d, hd, h⟩ := h; cases h
      exact .emits _ d rfl hd
    · replace h := h2
      simp only [bind_eq_error] at h
      refine .of_cause (by simp) ?_
      rcases h with h | ⟨_, _, h⟩
      · exact .inr (.inl (cause_of_register h))
      · cases h
  | diagnop => cases h; exact .nothing (by simp)

/-- Everything `exec` can do. -/
theorem exec_cases (i : Instr) (s t : State) (h : exec i s = .next t) : Effect Config.MOVE_ADDRESSING i s t :=
  execWith_cases Config.defaults i s t (by cases i <;> exact h)

/-! ### What a step can do -/

/-- Byte `k` of the number that `n` bytes stand for is the byte at `a + k`. -/
theorem byte_of_bytes (s : State) (a n k : Nat) (h : k < n) :
    BitVec.ofNat 8 (beNat (s.bytes a n) / 256 ^ (n - 1 - k)) = s.byte (a + k) := by
  have h1 : k < (beBytes n (beNat (s.bytes a n))).length := by simpa using h
  have h2 : k < (s.bytes a n).length := by simpa using h
  have hb := beBytes_beNat (s.bytes a n)
  rw [length_bytes] at hb
  rw [← beBytes_getElem n _ k h1, ← bytes_getElem s a n k h2]
  simp only [hb]

/-- The first byte of a fetched record is its opcode field. -/
theorem opcode_of_fetch {s : State} {rec : RecordWord} (h : s.fetch = .ok rec) :
    (Record.ofNumber rec).opcode = s.byte s.pc.toNat := by
  by_cases hm : Config.MEMSIZE ≤ s.pc.toNat + 9
  · rw [fetch_error s hm] at h; cases h
  · rw [fetch_ok s (by omega)] at h
    injection h with h
    have hb := byte_of_bytes s s.pc.toNat 10 0 (by omega)
    have hlt := beNat_lt (s.bytes s.pc.toNat 10)
    rw [Nat.add_zero] at hb
    rw [length_bytes] at hlt
    rw [← hb, ← h]
    generalize beNat (s.bytes s.pc.toNat 10) = y at *
    apply BitVec.eq_of_toNat_eq
    simp [Record.ofNumber, Nat.shiftRight_eq_div_pow]
    omega

/-- A record decodes to an instruction of its own opcode byte. -/
theorem opcode_of_decode {p : Config.Params} {r : Record} {i : Instr} (h : r.decode p = .ok i) : i.opcode = r.opcode := by
  unfold Record.decode at h
  split at h <;> cases h <;> simp_all [Instr.opcode]

/-- An unknown record's verdict holds its opcode byte. -/
theorem opcode_of_unknown {p : Config.Params} {r : Record} {u : UnknownOpcode} (h : r.decode p = .error u) :
    u.opcode = r.opcode := by
  unfold Record.decode at h
  split at h <;> cases h; rfl

/-- Every way a step can change the state: not at all when stopped, by a fault of the fetch, by an unknown opcode, or as
the instruction does. -/
inductive StepEffect (p : Config.Params) (run : Instr → State → Host.Outcome State Fault Refusal) (s : State) :
    State → Prop
  | inert (hs : s.stopped = true) : StepEffect p run s s
  | fetchFault (hs : s.stopped = false) (hm : Config.MEMSIZE ≤ (s.pc + 10).toNat + 9) :
      StepEffect p run s (s.preAdvance.raise ⟨.address, s.pc + 10⟩ 0x00)
  | unknown (hs : s.stopped = false) (hm : (s.pc + 10).toNat + 9 < Config.MEMSIZE) (rec : RecordWord)
      (u : UnknownOpcode) (hf : s.preAdvance.fetch = .ok rec) (hd : decodeRecord rec p = .error u)
      (ho : u.opcode = s.byte (s.pc + 10).toNat) : StepEffect p run s (s.preAdvance.raise ⟨.unknownOpcode, 0⟩ u.opcode)
  | runs (hs : s.stopped = false) (hm : (s.pc + 10).toNat + 9 < Config.MEMSIZE) (rec : RecordWord) (i : Instr) (t : State)
      (hf : s.preAdvance.fetch = .ok rec) (hd : decodeRecord rec p = .ok i) (ho : i.opcode = s.byte (s.pc + 10).toNat)
      (hr : run i s.preAdvance = .next t) : StepEffect p run s t

/-- Everything a step can do, whatever its last phase is. -/
theorem stepRunning_cases {p : Config.Params} {run : Instr → State → Host.Outcome State Fault Refusal} {s t : State}
    (h : stepRunning p run s = .next t) : StepEffect p run s t := by
  have inside : ∀ rec, s.preAdvance.fetch = .ok rec → (s.pc + 10).toNat + 9 < Config.MEMSIZE := by
    intro rec hr
    by_contra hm
    rw [fetch_error s.preAdvance (by simpa using hm)] at hr
    cases hr
  unfold stepRunning at h
  split at h
  · next hs => cases h; exact .inert hs
  · next hs =>
    simp only [Bool.not_eq_true] at hs
    rcases fetchInstr_cases s.preAdvance p with ⟨h1, h2⟩ | ⟨rec, u, h1, h2, h3⟩ | ⟨rec, i, h1, h2, h3⟩
    · rw [h2] at h
      cases h
      exact .fetchFault hs (by simpa using h1)
    · rw [h3] at h
      cases h
      exact .unknown hs (inside rec h1) rec u h1 h2 ((opcode_of_unknown h2).trans (opcode_of_fetch h1))
    · rw [h3] at h
      exact .runs hs (inside rec h1) rec i t h1 h2 ((opcode_of_decode h2).trans (opcode_of_fetch h1)) h

/-- Everything `stepWith` can do. -/
theorem stepWith_cases {p : Config.Params} {s t : State} (h : stepWith p s = .next t) : StepEffect p (execWith p) s t :=
  stepRunning_cases h

/-- Everything `step` can do. -/
theorem step_cases {s t : State} (h : step s = .next t) : StepEffect Config.defaults exec s t :=
  stepRunning_cases h

end Sys2Proof.Machine
end

