-- ==== Sys2Proof/Laws/HostInterface.lean ====
section
/-! SUPPORT. The small lemmas of reset and of runs. -/

namespace Sys2Proof.Machine

open Sys2Proof

/-- Reset answers a state exactly when the image fits, and that state. -/
theorem resetWith_eq_some {c : Config.Open} {image : List Byte} {s : State} :
    resetWith c image = some s ↔ image.length ≤ Config.ROMSIZE ∧
      s = { x := Vector.ofFn c.REG_INIT
            pc := c.PC_RESET
            halted := false
            fault := .clear
            rom := Memory.tabulate (fun a => image.getD a (c.ROM_FILL a)) 0 Config.ROMSIZE
            ram := Memory.tabulate (fun a => c.RAM_INIT (a - Config.ROMSIZE)) Config.ROMSIZE Config.RAMSIZE
            dbg := [] } := by
  unfold resetWith
  split
  · next h => simp [h, eq_comm]
  · next h => simp [h]

variable {p : Config.Params} {s t u : State} {n : Nat} {r : Report}

@[simp] theorem runFor_zero : runFor 0 s p = .next (.boundReached, s) := rfl

/-- A run ends with its first step when that stops the core. -/
theorem runFor_of_stop (h : stepWith p s = .next t) (ht : t.stopped = true) :
    runFor (n + 1) s p = .next (t.result, t) := by
  simp [runFor, h, ht]

/-- A run whose first step does not stop the core goes on with one step less. -/
theorem runFor_of_go (h : stepWith p s = .next t) (ht : t.stopped = false) :
    runFor (n + 1) s p = runFor n t p := by
  simp [runFor, h, ht]

theorem RunUntilHalt_some : RunUntilHalt (some n) s r t p ↔ runFor n s p = .next (r, t) := Iff.rfl

theorem RunUntilHalt_none :
    RunUntilHalt none s r t p ↔ r ≠ .boundReached ∧ ∃ n, runFor n s p = .next (r, t) := Iff.rfl

/-- No state reports that a bound was reached. -/
theorem result_ne_boundReached : s.result ≠ .boundReached := by
  unfold State.result
  split_ifs <;> simp

end Sys2Proof.Machine
end

