-- ==== Sys2Proof/Laws/PerInstr.lean ====
section
/-! SUPPORT. One family of statements about every instruction as syntax: the record the encoder writes carries the
opcode byte of 30_encoding.md R54 in its opcode field. -/

open Sys2Proof

/-- The opcode field of an instruction's record is the instruction's opcode byte. -/
def Sys2Proof.Laws.EncodedOpcode.Statement (i : Instr) : Prop :=
  (Record.ofNumber (encode i)).opcode = i.opcode

theorem Sys2Proof.Laws.EncodedOpcode.hcf :
    Sys2Proof.Laws.EncodedOpcode.Statement .hcf := by
  rw [Sys2Proof.Laws.EncodedOpcode.Statement, encode, Record.ofNumber_number]; rfl

theorem Sys2Proof.Laws.EncodedOpcode.add :
    Sys2Proof.Laws.EncodedOpcode.Statement .add := by
  rw [Sys2Proof.Laws.EncodedOpcode.Statement, encode, Record.ofNumber_number]; rfl

theorem Sys2Proof.Laws.EncodedOpcode.sub :
    Sys2Proof.Laws.EncodedOpcode.Statement .sub := by
  rw [Sys2Proof.Laws.EncodedOpcode.Statement, encode, Record.ofNumber_number]; rfl

theorem Sys2Proof.Laws.EncodedOpcode.div :
    Sys2Proof.Laws.EncodedOpcode.Statement .div := by
  rw [Sys2Proof.Laws.EncodedOpcode.Statement, encode, Record.ofNumber_number]; rfl

theorem Sys2Proof.Laws.EncodedOpcode.mul :
    Sys2Proof.Laws.EncodedOpcode.Statement .mul := by
  rw [Sys2Proof.Laws.EncodedOpcode.Statement, encode, Record.ofNumber_number]; rfl

theorem Sys2Proof.Laws.EncodedOpcode.loadi (sc : SizeClass) (lit : Word) (rd : RegField) :
    Sys2Proof.Laws.EncodedOpcode.Statement (.loadi sc lit rd) := by
  rw [Sys2Proof.Laws.EncodedOpcode.Statement, encode, Record.ofNumber_number]; rfl

theorem Sys2Proof.Laws.EncodedOpcode.move (sc : SizeClass) (src dst : Word) :
    Sys2Proof.Laws.EncodedOpcode.Statement (.move sc src dst) := by
  rw [Sys2Proof.Laws.EncodedOpcode.Statement, encode, Record.ofNumber_number]; rfl

theorem Sys2Proof.Laws.EncodedOpcode.load (sc : SizeClass) (addr : Word) (rd : RegField) :
    Sys2Proof.Laws.EncodedOpcode.Statement (.load sc addr rd) := by
  rw [Sys2Proof.Laws.EncodedOpcode.Statement, encode, Record.ofNumber_number]; rfl

theorem Sys2Proof.Laws.EncodedOpcode.store (sc : SizeClass) (rs : RegField) (addr : Word) :
    Sys2Proof.Laws.EncodedOpcode.Statement (.store sc rs addr) := by
  rw [Sys2Proof.Laws.EncodedOpcode.Statement, encode, Record.ofNumber_number]; rfl

theorem Sys2Proof.Laws.EncodedOpcode.swap (rd : RegField) :
    Sys2Proof.Laws.EncodedOpcode.Statement (.swap rd) := by
  rw [Sys2Proof.Laws.EncodedOpcode.Statement, encode, Record.ofNumber_number]; rfl

theorem Sys2Proof.Laws.EncodedOpcode.exchange (rs rd : RegField) :
    Sys2Proof.Laws.EncodedOpcode.Statement (.exchange rs rd) := by
  rw [Sys2Proof.Laws.EncodedOpcode.Statement, encode, Record.ofNumber_number]; rfl

theorem Sys2Proof.Laws.EncodedOpcode.not (rs rd : RegField) :
    Sys2Proof.Laws.EncodedOpcode.Statement (.not rs rd) := by
  rw [Sys2Proof.Laws.EncodedOpcode.Statement, encode, Record.ofNumber_number]; rfl

theorem Sys2Proof.Laws.EncodedOpcode.and (rs rd : RegField) :
    Sys2Proof.Laws.EncodedOpcode.Statement (.and rs rd) := by
  rw [Sys2Proof.Laws.EncodedOpcode.Statement, encode, Record.ofNumber_number]; rfl

theorem Sys2Proof.Laws.EncodedOpcode.or (rs rd : RegField) :
    Sys2Proof.Laws.EncodedOpcode.Statement (.or rs rd) := by
  rw [Sys2Proof.Laws.EncodedOpcode.Statement, encode, Record.ofNumber_number]; rfl

theorem Sys2Proof.Laws.EncodedOpcode.xor (rs rd : RegField) :
    Sys2Proof.Laws.EncodedOpcode.Statement (.xor rs rd) := by
  rw [Sys2Proof.Laws.EncodedOpcode.Statement, encode, Record.ofNumber_number]; rfl

theorem Sys2Proof.Laws.EncodedOpcode.jump (t : Target) :
    Sys2Proof.Laws.EncodedOpcode.Statement (.jump t) := by
  rw [Sys2Proof.Laws.EncodedOpcode.Statement, encode, Record.ofNumber_number]; rfl

theorem Sys2Proof.Laws.EncodedOpcode.jeqz (rs : RegField) (t : Target) :
    Sys2Proof.Laws.EncodedOpcode.Statement (.jeqz rs t) := by
  rw [Sys2Proof.Laws.EncodedOpcode.Statement, encode, Record.ofNumber_number]; rfl

theorem Sys2Proof.Laws.EncodedOpcode.jnez (rs : RegField) (t : Target) :
    Sys2Proof.Laws.EncodedOpcode.Statement (.jnez rs t) := by
  rw [Sys2Proof.Laws.EncodedOpcode.Statement, encode, Record.ofNumber_number]; rfl

theorem Sys2Proof.Laws.EncodedOpcode.debug (rd : RegField) :
    Sys2Proof.Laws.EncodedOpcode.Statement (.debug rd) := by
  rw [Sys2Proof.Laws.EncodedOpcode.Statement, encode, Record.ofNumber_number]; rfl

theorem Sys2Proof.Laws.EncodedOpcode.copy (rs rd : RegField) :
    Sys2Proof.Laws.EncodedOpcode.Statement (.copy rs rd) := by
  rw [Sys2Proof.Laws.EncodedOpcode.Statement, encode, Record.ofNumber_number]; rfl

theorem Sys2Proof.Laws.EncodedOpcode.diagnop :
    Sys2Proof.Laws.EncodedOpcode.Statement .diagnop := by
  rw [Sys2Proof.Laws.EncodedOpcode.Statement, encode, Record.ofNumber_number]; rfl
end

