-- ==== Sys2Proof/Tests/Slice0.lean ====
section
/-! SUPPORT. Tests. Expected values are those of spec/95_test_vectors.md (the identifier stands in each name or comment),
or are worked out by hand from the rule named. -/

namespace Sys2Proof.Tests

open Sys2Proof Sys2Proof.Machine

/-! ### Helpers -/

/-- The state after reset with some registers set. -/
def regs (l : List (RegIdx × Word)) : State := l.foldl (fun s p => s.setReg p.1 p.2) State.reset

/-- A state with its program counter set. -/
def atPc (s : State) (pc : Word) : State := { s with pc := pc }

/-- One step on a record placed where the state fetches next. -/
def run (s : State) (rec : Nat) : Option State :=
  match step (s.withFetchWord 80 rec) with
  | .next t => some t
  | .fault _ => none
  | .refused _ => none

theorem run_eq_some {s t : State} {rec : Nat} (h : run s rec = some t) : step (s.withFetchWord 80 rec) = .next t := by
  unfold run at h
  split at h <;> cases h
  assumption

/-- A program counter and a register after one step. -/
def pcReg (r : RegIdx) (o : Option State) : Option (Word × Word) := o.map fun t => (t.pc, t.reg r)

/-- The fault record after one step. -/
def faultOf (o : Option State) : Option FaultStatus := o.map fun t => t.fault

/-- Some bytes after one step. -/
def bytesAt (a n : Nat) (o : Option State) : Option (List Byte) := o.map fun t => t.bytes a n

/-! ### WellFormed refuses each ill-formed term -/

/-- 0x01 has the name `word` (30_encoding.md R48). -/
theorem test_wf_refuses_named_size_in_loadi : (Instr.loadi (.other 0x01) 0 0).wf = false := by decide
theorem test_wf_refuses_named_size_in_move : (Instr.move (.other 0x05) 0 0).wf = false := by decide
theorem test_wf_refuses_named_size_in_load : (Instr.load (.other 0x00) 0 0).wf = false := by decide
theorem test_wf_refuses_named_size_in_store : (Instr.store (.other 0x02) 0 0).wf = false := by decide
/-- Jumps accept size class 0x00 (30_encoding.md R50), so it is no unaccepted target. -/
theorem test_wf_refuses_byte_as_unaccepted_jump : (Instr.jump (.unaccepted .byte 0)).wf = false := by decide
theorem test_wf_refuses_constLong_as_unaccepted_jump : (Instr.jump (.unaccepted .constLong 0)).wf = false := by decide
theorem test_wf_refuses_named_size_in_jump : (Instr.jump (.unaccepted (.other 0x03) 0)).wf = false := by decide
theorem test_wf_refuses_accepted_size_in_jeqz : (Instr.jeqz 0 (.unaccepted .constLong 0)).wf = false := by decide
theorem test_wf_refuses_accepted_size_in_jnez : (Instr.jnez 0 (.unaccepted .byte 0)).wf = false := by decide
theorem test_wf_accepts_the_rest :
    (Instr.loadi (.other 0x06) 0 16).wf = true ∧ (Instr.jump (.unaccepted .word 0)).wf = true ∧
    (Instr.jeqz 255 (.register 255)).wf = true := by decide

/-- A setting that gives two size classes one byte, and one that gives a class the byte of `SC_BYTE`. -/
theorem test_wf_refuses_equal_size_bytes :
    ({ SC_WORD := 0x02 } : Config.Params).wf = false ∧ ({ SC_CONST_LONG := 0x00 } : Config.Params).wf = false ∧
    Config.defaults.wf = true := by decide
/-- A byte that a setting names is no `other` under it. -/
theorem test_wf_refuses_size_named_by_the_setting :
    (Instr.loadi (.other 0x10) 0 0).wf { SC_WORD := 0x10 } = false ∧ (Instr.loadi (.other 0x01) 0 0).wf { SC_WORD := 0x10 } = true := by
  decide

/-! ### Decoding: words written out from 30_encoding.md R45, R46, R48, R54 -/

theorem test_decode_hcf : decodeRecord 0x00123456789ABCDEF011 = .ok .hcf := by rfl
theorem test_decode_add : decodeRecord 0x01990000000000000000 = .ok .add := by rfl
theorem test_decode_sub : decodeRecord 0x02000000000000000000 = .ok .sub := by rfl
theorem test_decode_div : decodeRecord 0x03000000000000000000 = .ok .div := by rfl
theorem test_decode_mul : decodeRecord 0x04000000000000000000 = .ok .mul := by rfl
/-- W3, V-DM-5. -/
theorem test_decode_loadi :
    decodeRecord 0x05000000002A00000003 = .ok (.loadi .byte 0x2A 3) ∧
    decodeRecord 0x0500FFFFFFFFABCDEF07 = .ok (.loadi .byte 0xFFFFFFFF 7) := ⟨by rfl, by rfl⟩
/-- V-DM-24. -/
theorem test_decode_move : decodeRecord 0x06010020000000200010 = .ok (.move .word 0x200000 0x200010) := by rfl
/-- V-DM-11. -/
theorem test_decode_load : decodeRecord 0x07020027FFFC00000006 = .ok (.load .long 0x27FFFC 6) := by rfl
/-- V-DM-22. -/
theorem test_decode_store : decodeRecord 0x08030000000500200000 = .ok (.store .constByte 5 0x200000) := by rfl
/-- V-DM-33. -/
theorem test_decode_swap : decodeRecord 0x0942FFFFFFFF00000005 = .ok (.swap 5) := by rfl
theorem test_decode_exchange : decodeRecord 0x0A000000000500000006 = .ok (.exchange 5 6) := by rfl
theorem test_decode_not : decodeRecord 0x0B000000000100000004 = .ok (.not 1 4) := by rfl
theorem test_decode_and : decodeRecord 0x0C000000000100000010 = .ok (.and 1 16) := by rfl
theorem test_decode_or : decodeRecord 0x0D000000000100000002 = .ok (.or 1 2) := by rfl
theorem test_decode_xor : decodeRecord 0x0E000000000300000004 = .ok (.xor 3 4) := by rfl
/-- V-CT-1, V-CT-4, V-CT-5. -/
theorem test_decode_jump :
    decodeRecord 0x0F050000006400000000 = .ok (.jump (.literal 100)) ∧
    decodeRecord 0x0F00FFFFFF0712345678 = .ok (.jump (.register 7)) ∧
    decodeRecord 0x0F020000006400000000 = .ok (.jump (.unaccepted .long 100)) := ⟨by rfl, by rfl, by rfl⟩
/-- V-CT-8, V-CT-14. -/
theorem test_decode_jeqz :
    decodeRecord 0x10050000000300000064 = .ok (.jeqz 3 (.literal 100)) ∧
    decodeRecord 0x10000000000300000008 = .ok (.jeqz 3 (.register 8)) := ⟨by rfl, by rfl⟩
/-- V-CT-11. -/
theorem test_decode_jnez : decodeRecord 0x11050000000000000014 = .ok (.jnez 0 (.literal 20)) := by rfl
/-- V-DG-2. -/
theorem test_decode_debug : decodeRecord 0x1277FFFFFFFF00000109 = .ok (.debug 9) := by rfl
/-- V-SEQ-8. -/
theorem test_decode_copy : decodeRecord 0x13EEFFFFFF0100000102 = .ok (.copy 1 2) := by rfl
/-- V-DG-4. -/
theorem test_decode_diagnop : decodeRecord 0xFF123456789ABCDEF011 = .ok .diagnop := by rfl
/-- V-SEQ-3, V-SEQ-4 and the top of the unknown range. -/
theorem test_decode_unknown :
    decodeRecord 0x14000000000000000000 = .error ⟨0x14⟩ ∧ decodeRecord 0xFE77FFFFFFFFFFFFFFFF = .error ⟨0xFE⟩ :=
  ⟨by rfl, by rfl⟩
/-- 93_implementation_defined.md I9: the size-class bytes are parameters. -/
theorem test_decode_under_other_size_bytes :
    decodeRecord 0x05100000002A00000003 { SC_WORD := 0x10 } = .ok (.loadi .word 0x2A 3) ∧
    decodeRecord 0x0F200000006400000000 { SC_CONST_LONG := 0x20 } = .ok (.jump (.literal 100)) ∧
    decodeRecord 0x0F050000006400000000 { SC_CONST_LONG := 0x20 } = .ok (.jump (.unaccepted (.other 0x05) 100)) :=
  ⟨by rfl, by rfl, by rfl⟩
theorem test_decode_bytes_in_memory_order :
    decode [0x05, 0x02, 0xDE, 0xAD, 0xBE, 0xEF, 0x00, 0x00, 0x00, 0x0F] = .ok (.loadi .long 0xDEADBEEF 15) := by rfl
theorem test_decode_truncated : decode [0x00, 0, 0, 0, 0, 0, 0, 0, 0] = .error .truncated := by rfl
theorem test_decodeTableWord :
    decodeTableWord 80 0x05000000002A00000003 = some (.loadi .byte 0x2A 3) ∧
    decodeTableWord 80 0x14000000000000000000 = none := ⟨by rfl, by rfl⟩
/-- W3, V-DM-16, V-CT-14: the encoder writes the words of the spec. -/
theorem test_encode :
    encode (.loadi .byte 0x2A 3) = 0x05000000002A00000003 ∧
    encode (.store .long 5 0x200000) = 0x08020000000500200000 ∧
    encode (.jeqz 3 (.register 8)) = 0x10000000000300000008 := ⟨by rfl, by rfl, by rfl⟩

/-! ### Memory -/

theorem test_memory_write_keeps_order :
    ((Memory.write (Memory.write (Memory.write [] 7 0x11) 3 0x22) 5 0x33)) = [(3, 0x22), (5, 0x33), (7, 0x11)] := by decide
theorem test_memory_write_of_unlisted_removes :
    Memory.write (Memory.write [] 7 0x11) 7 0x00 = [] := by decide

/-! ### One step (95_test_vectors.md) -/

theorem test_V_SEQ_4_unknown_wins :
    faultOf (run State.reset 0xFE77FFFFFFFFFFFFFFFF) = some ⟨0x02, 0x00000000, 0xFE, 0x00000000⟩ := by rfl
theorem test_V_SEQ_5_size_before_register :
    faultOf (run State.reset 0x05030000002A00000010) = some ⟨0x05, 0x00000000, 0x05, 0x00000000⟩ := by rfl
theorem test_V_SEQ_9_hcf :
    (run State.reset 0x00123456789ABCDEF000).map (fun t => (t.pc, t.halted, t.result)) = some (0, true, .halt) := by rfl
theorem test_V_SEQ_10_last_record :
    pcReg 0 (run (atPc State.reset 0x0027FFEC) 0xFF000000000000000000) = some (0x0027FFF6, 0) := by rfl
theorem test_V_SEQ_11_fetch_past_memory :
    (match step (atPc State.reset 0x0027FFED) with
      | .next t => some (t.pc, t.fault)
      | .fault _ => none
      | .refused _ => none) = some (0x0027FFF7, ⟨0x04, 0x0027FFF7, 0x00, 0x0027FFF7⟩) := by rfl
theorem test_V_SEQ_13_fetch_across_rom_and_ram :
    pcReg 0 (run (atPc State.reset 0x001FFFF0) 0xFF000000000000000000) = some (0x001FFFFA, 0) := by rfl

theorem test_V_AR_2_add_wraps :
    pcReg 2 (run (regs [(0, 0xFFFFFFFF), (1, 1)]) 0x01000000000000000000) = some (0, 0) := by rfl
theorem test_V_AR_5_sub_order :
    pcReg 2 (run (regs [(0, 3), (1, 5)]) 0x02000000000000000000) = some (0, 0xFFFFFFFE) := by rfl
theorem test_V_AR_8_div_by_zero :
    (run (regs [(0, 7), (2, 0x11111111)]) 0x03000000000000000000).map (fun t => (t.pc, t.reg 2, t.fault)) =
      some (0, 0x11111111, ⟨0x03, 0, 0x03, 0⟩) := by rfl
theorem test_V_AR_9_div_is_unsigned :
    pcReg 2 (run (regs [(0, 0x80000000), (1, 0xFFFFFFFF)]) 0x03000000000000000000) = some (0, 0) := by rfl
theorem test_V_AR_14_mul_low_half :
    pcReg 2 (run (regs [(0, 0xFFFFFFFF), (1, 0xFFFFFFFF)]) 0x04000000000000000000) = some (0, 1) := by rfl

theorem test_V_DM_4_loadi_long : pcReg 15 (run State.reset 0x0502DEADBEEF0000000F) = some (0, 0xDEADBEEF) := by rfl
theorem test_V_SEQ_8_copy :
    pcReg 2 (run (regs [(1, 0xCAFEF00D)]) 0x13EEFFFFFF0100000102) = some (0, 0xCAFEF00D) := by rfl
theorem test_V_SEQ_7_copy_bad_dest :
    faultOf (run (regs [(1, 5)]) 0x13000000000100000010) = some ⟨0x06, 0, 0x13, 0⟩ := by rfl
theorem test_V_DM_25_move_overlap :
    bytesAt 0x200000 5 (run (State.reset.pokeBytes 0x200000 [0x11, 0x22, 0x33, 0x44, 0x55]) 0x06020020000000200001) =
      some [0x11, 0x11, 0x22, 0x33, 0x44] := by rfl
theorem test_V_DM_31_move_register_indirect :
    (match stepWith { MOVE_ADDRESSING := .registerIndirect }
        (((regs [(5, 0x00200000), (6, 0x00200008)]).pokeBytes 0x200000 [0xBE, 0xEF]).withFetchWord 80
          0x06010000000500000006) with
      | .next t => some (t.pc, t.bytes 0x200008 2)
      | .fault _ => none
      | .refused _ => none) = some (0, [0xBE, 0xEF]) := by rfl
theorem test_V_DM_10_load_word :
    pcReg 6 (run (State.reset.pokeBytes 0x200000 [0x12, 0x34, 0x56, 0x78]) 0x07010020000100000006) = some (0, 0x3456) := by rfl
theorem test_V_DM_13_load_sum_does_not_wrap :
    faultOf (run State.reset 0x0701FFFFFFFF00000006) = some ⟨0x04, 0, 0x07, 0xFFFFFFFF⟩ := by rfl
theorem test_V_DM_19_store_at_the_end :
    bytesAt 0x27FFFC 4 (run (regs [(5, 0x12345678)]) 0x0802000000050027FFFC) = some [0x12, 0x34, 0x56, 0x78] := by rfl
theorem test_V_DM_18_store_from_rom :
    (run (regs [(5, 0x12345678)]) 0x080200000005001FFFFE).map (fun t => (t.fault, t.bytes 0x1FFFFE 4)) =
      some (⟨0x01, 0, 0x08, 0x001FFFFE⟩, [0, 0, 0, 0]) := by rfl
theorem test_V_DM_32_swap :
    pcReg 5 (run (regs [(5, 0x12345678)]) 0x09000000000000000005) = some (0, 0x56781234) := by rfl
theorem test_V_DM_34_exchange :
    (run (regs [(5, 0x56781234), (6, 0x3456)]) 0x0A000000000500000006).map (fun t => (t.reg 5, t.reg 6)) =
      some (0x3456, 0x56781234) := by rfl
theorem test_V_DM_35_exchange_with_itself :
    pcReg 5 (run (regs [(5, 0x56781234)]) 0x0A000000000500000005) = some (0, 0x56781234) := by rfl

theorem test_V_LG_1_not_copies :
    pcReg 4 (run (regs [(1, 0xFF), (4, 0x12345678)]) 0x0B000000000100000004) = some (0, 0xFF) := by rfl
theorem test_V_LG_3_and :
    pcReg 2 (run (regs [(1, 0xFF00FF00), (2, 0x0F0F0F0F)]) 0x0C000000000100000002) = some (0, 0x0F000F00) := by rfl
theorem test_V_LG_4_or :
    pcReg 2 (run (regs [(1, 0xFF00FF00), (2, 0x0F0F0F0F)]) 0x0D000000000100000002) = some (0, 0xFF0FFF0F) := by rfl
theorem test_V_LG_5_xor :
    pcReg 2 (run (regs [(1, 0xFF00FF00), (2, 0x0F0F0F0F)]) 0x0E000000000100000002) = some (0, 0xF00FF00F) := by rfl
theorem test_V_LG_6_xor_with_itself :
    pcReg 3 (run (regs [(3, 0xDEADBEEF)]) 0x0E000000000300000003) = some (0, 0) := by rfl

theorem test_V_CT_2_jump_to_itself :
    pcReg 0 (run State.reset 0x0F050000000000000000) = some (0xFFFFFFF6, 0) := by rfl
theorem test_V_CT_4_jump_to_register :
    pcReg 7 (run (regs [(7, 0x123)]) 0x0F00FFFFFF0712345678) = some (0x119, 0x123) := by rfl
theorem test_V_CT_10_jeqz_not_taken :
    pcReg 3 (run (atPc (regs [(3, 0x80000000)]) 0xA) 0x10050000000300000064) = some (0x14, 0x80000000) := by rfl
theorem test_V_CT_15_jeqz_register_target :
    pcReg 3 (run (atPc State.reset 0xA) 0x10000000000300000003) = some (0xFFFFFFF6, 0) := by rfl
theorem test_V_CT_13_jnez_taken :
    pcReg 0 (run (atPc (regs [(0, 0xFFFFFFFF)]) 0x1E) 0x11050000000000000014) = some (0xA, 0xFFFFFFFF) := by rfl
theorem test_V_CT_17_jnez_bad_condition_register :
    faultOf (run (atPc State.reset 0xA) 0x11050000001000000064) = some ⟨0x06, 0x14, 0x11, 0⟩ := by rfl

theorem test_V_DG_2_debug :
    (run (regs [(9, 0x64)]) 0x1277FFFFFFFF00000109).map (fun t => (t.pc, t.dbg)) = some (0, [0x64]) := by rfl
theorem test_V_DG_3_debug_bad_register :
    (run State.reset 0x12000000000000000010).map (fun t => (t.dbg, t.fault)) = some ([], ⟨0x06, 0, 0x12, 0⟩) := by rfl
theorem test_V_DG_4_diagnop :
    (run (atPc State.reset 0) 0xFF123456789ABCDEF011).map (fun t => (t.pc, t.x, t.halted, t.fault, t.dbg)) =
      some (0xA, State.reset.x, false, .clear, []) := by rfl

/-! ### Witnesses: the hypotheses of each statement are met, clause by clause -/

/-- A running state whose record jumps to itself (V-CT-2). -/
def selfLoop : State := State.reset.withFetchWord 80 0x0F050000000000000000

theorem selfLoop_step : step selfLoop = .next selfLoop := by
  have h : run State.reset 0x0F050000000000000000 = some selfLoop := by decide +kernel
  have h' := run_eq_some h
  rw [← selfLoop] at h'
  exact h'

theorem witness_ResetSetsTheWholeState :
    (([] : List Byte).length ≤ 0x200000) ∧ ((List.replicate 0x200000 (0xFF : Byte)).length ≤ 0x200000) ∧
    (0x200000 < (List.replicate 0x200001 (0xFF : Byte)).length) ∧
    (0 < ([0xFF] : List Byte).length) ∧ (([0xFF] : List Byte).length ≤ 0x1FFFFF ∧ 0x1FFFFF < 0x200000) ∧
    (0x7FFFF < 0x80000) := by
  refine ⟨by decide, ?_, ?_, by decide, by decide, by decide⟩ <;> rw [List.length_replicate]; decide

theorem witness_FirstStepRunsTheRecordAtAddressZero :
    Config.named.PC_RESET = Config.PC_RESET ∧
    (∃ s, resetWith Config.named [0xFF, 0, 0, 0, 0, 0, 0, 0, 0, 0] = some s) ∧
    decode [0xFF, 0, 0, 0, 0, 0, 0, 0, 0, 0] = .ok .diagnop :=
  ⟨rfl, ⟨_, by rw [resetWith, if_pos (by decide)]⟩, by rfl⟩

/-- The state whose next record is at the last address from which a whole one can be fetched (V-SEQ-10). -/
def lastRecord : State := (atPc State.reset 0x0027FFEC).withFetchWord 80 0x05000000002A00000003

theorem witness_StepRunsTheDecodedInstruction :
    lastRecord.Running ∧ (lastRecord.pc + 10).toNat + 10 = Config.MEMSIZE ∧ (Instr.loadi .byte 0x2A 3).wf = true ∧
      decode (lastRecord.bytes (lastRecord.pc + 10).toNat 10) = .ok (.loadi .byte 0x2A 3) := by
  have hb : lastRecord.bytes (lastRecord.pc + 10).toNat 10 = [0x05, 0, 0, 0, 0, 0x2A, 0, 0, 0, 3] := by decide +kernel
  rw [hb]
  exact ⟨by decide +kernel, by decide +kernel, by decide, by rfl⟩

theorem witness_StoppedCoreIsInert :
    State.reset.halt.halted = true ∧
    ({ State.reset with fault := ⟨0x03, 0, 0x03, 0⟩ } : State).fault.FAULT_KIND ≠ 0x00 := by decide

/-- V-SEQ-11. -/
theorem witness_FetchPastMemoryTakesAddressFault :
    (atPc State.reset 0x0027FFED).Running ∧ Config.MEMSIZE ≤ ((0x0027FFED : Word) + 10).toNat + 10 - 1 := by decide

theorem witness_UnknownOpcodeTakesUnknownOpcodeFault :
    (let s := State.reset.withFetchWord 80 0x14000000000000000000
     s.Running ∧ (s.pc + 10).toNat + 10 ≤ Config.MEMSIZE ∧ (s.byte (s.pc + 10).toNat).toNat = 0x14) ∧
    (let s := State.reset.withFetchWord 80 0xFE000000000000000000
     s.Running ∧ (s.pc + 10).toNat + 10 ≤ Config.MEMSIZE ∧ (s.byte (s.pc + 10).toNat).toNat = 0xFE) := by
  decide +kernel

/-- A fetch that faults, an unknown opcode, a division by zero (V-AR-8), and V-DM-17 and V-DM-12 with an address. -/
theorem witness_FaultsArePreciseAndFatal :
    (∃ t, (atPc State.reset 0x0027FFED).Running ∧ step (atPc State.reset 0x0027FFED) = .next t ∧
      t.fault.FAULT_KIND = 0x04) ∧
    (∃ t, step (State.reset.withFetchWord 80 0x14000000000000000000) = .next t ∧ t.fault.FAULT_KIND = 0x02) ∧
    (∃ t, step (State.reset.withFetchWord 80 0x03000000000000000000) = .next t ∧ t.fault.FAULT_KIND = 0x03) ∧
    (∃ t, step (State.reset.withFetchWord 80 0x080000000005001FFFFF) = .next t ∧ t.fault.FAULT_KIND = 0x01) ∧
    (∃ t, step (State.reset.withFetchWord 80 0x07020027FFFD00000006) = .next t ∧ t.fault.FAULT_KIND = 0x04) :=
  ⟨⟨_, by decide, rfl, by rfl⟩, ⟨_, rfl, by rfl⟩, ⟨_, rfl, by rfl⟩, ⟨_, rfl, by rfl⟩, ⟨_, rfl, by rfl⟩⟩

/-- V-SEQ-5, V-SEQ-7, V-SEQ-8; and a jump. -/
theorem witness_ValidationFaultsOnSizeThenRegister :
    (let r : Record := ⟨0x05, 0x03, 0x2A, 0x10⟩
     r.decode = .ok (.loadi .constByte 0x2A 0x10) ∧ acceptsSize r = false) ∧
    (let r : Record := ⟨0x13, 0x00, 0x01, 0x10⟩
     r.decode = .ok (.copy 1 0x10) ∧ acceptsSize r = true ∧ ∃ f ∈ readAsRegisters r, 16 ≤ f.toNat % 256) ∧
    (let r : Record := ⟨0x11, 0x05, 0x0F, 0x64⟩
     r.decode = .ok (.jnez 0x0F (.literal 0x64)) ∧ acceptsSize r = true ∧
       (∀ f ∈ readAsRegisters r, f.toNat % 256 < 16) ∧ State.reset.fault.FAULT_KIND = 0x00 ∧
       ∃ t, exec (.jnez 0x0F (.literal 0x64)) State.reset = .next t) ∧
    (∀ n, (SizeClass.constByte, n) ∉ sizeWidths) ∧
    ((SizeClass.byte, 1) ∈ sizeWidths ∧ (16 ≤ (0x0F : Word).toNat % 256 ∨ 16 ≤ (0x10 : Word).toNat % 256)) :=
  ⟨⟨by rfl, by decide⟩, ⟨by rfl, by decide, ⟨0x10, by decide, by decide⟩⟩,
    ⟨by rfl, by decide, by simp [readAsRegisters], by rfl, ⟨_, rfl⟩⟩, by simp [sizeWidths], by decide⟩

theorem witness_RomNeverChanges :
    (∃ t, step (State.reset.withFetchWord 80 0x080000000005001FFFFF) = .next t) ∧
    0x1FFFFF < Config.ROMSIZE ∧ (0x001FFFFF : Word).toNat < Config.ROMSIZE :=
  ⟨⟨_, rfl⟩, by decide, by decide⟩

theorem witness_OnlyHcfSetsHalted :
    (∃ t, exec .hcf State.reset = .next t) ∧ (∃ t, exec .add State.reset = .next t) ∧
    (∃ u, resetWith Config.named [] = some u) ∧ State.reset.halt.halted = true :=
  ⟨⟨_, rfl⟩, ⟨_, rfl⟩, ⟨_, by rw [resetWith, if_pos (by decide)]⟩, rfl⟩

theorem witness_OnlyJumpsWriteThePc :
    isJump (.swap 15) = false ∧ ∃ t, exec (.swap 15) State.reset = .next t := ⟨rfl, _, rfl⟩

/-- A step that appends (V-DG-1) and one that does not. -/
theorem witness_SinkIsAppendOnlyAndNeverRead :
    (∃ t, step (State.reset.withFetchWord 80 0x12000000000000000009) = .next t) ∧ (∃ t, step selfLoop = .next t) :=
  ⟨⟨_, rfl⟩, ⟨_, rfl⟩⟩

theorem witness_RegistersChangeOnlyAsTabled :
    (∃ t, exec .add State.reset = .next t) ∧ writesRegister .add 3 = false ∧
    (∃ t, exec (.exchange 0 15) State.reset = .next t) ∧ writesRegister (.exchange 0 15) 1 = false :=
  ⟨⟨_, rfl⟩, by decide, ⟨_, rfl⟩, by decide⟩

theorem witness_MemoryChangesOnlyWhereStored :
    (storesTo .add State.reset = none ∧ ∃ t, exec .add State.reset = .next t) ∧
    (storesTo (.store .long 5 0x0027FFFC) State.reset = some (0x0027FFFC, .long) ∧ (SizeClass.long, 4) ∈ sizeWidths ∧
      (0x27FFFB < (0x0027FFFC : Word).toNat) ∧ (∃ t, exec (.store .long 5 0x0027FFFC) State.reset = .next t)) ∧
    (storesTo (.move .constByte 0 0x200000) State.reset = some (0x200000, .constByte) ∧
      (∀ n, (SizeClass.constByte, n) ∉ sizeWidths) ∧ ∃ t, exec (.move .constByte 0 0x200000) State.reset = .next t) :=
  ⟨⟨rfl, _, rfl⟩, ⟨rfl, by decide, by decide, _, rfl⟩, ⟨rfl, by simp [sizeWidths], _, rfl⟩⟩

/-- A state that satisfies the invariant and takes a step that stores. -/
theorem witness_EveryStepKeepsTheInvariant :
    (State.reset.withFetchWord 80 0x0802000000050027FFFC).Inv ∧
    ∃ t, step (State.reset.withFetchWord 80 0x0802000000050027FFFC) = .next t := ⟨by decide +kernel, _, rfl⟩

/-- The same step for a setting of the parameters. -/
theorem selfLoop_stepWith : stepWith Config.defaults selfLoop = .next selfLoop := by
  have h : (match stepWith Config.defaults selfLoop with
      | .next t => some t
      | .fault _ => none
      | .refused _ => none) = some selfLoop := by decide +kernel
  split at h <;> cases h
  assumption

/-- The first step from reset with nothing placed (hcf, log 5), and the state it leaves. -/
def haltingTrace (k : Nat) : State := if k = 0 then State.reset else State.reset.preAdvance.halt

/-- A trace that never stops, and one that stops at its first step. -/
theorem witness_RunUntilHaltStopsAtTheFirstStop :
    (∀ k : Nat, stepWith Config.defaults ((fun _ => selfLoop) k) = .next ((fun _ => selfLoop) (k + 1))) ∧
    selfLoop.Running ∧
    (∀ k : Nat, stepWith Config.defaults (haltingTrace k) = .next (haltingTrace (k + 1))) ∧
    ¬ (haltingTrace 1).Running := by
  refine ⟨fun _ => selfLoop_stepWith, by decide +kernel, fun k => ?_, by decide +kernel⟩
  cases k with
  | zero => rfl
  | succ k => rfl

theorem witness_InvariantHoldsAtReset : ∃ s, resetWith Config.named [0xFF] = some s :=
  ⟨_, by rw [resetWith, if_pos (by decide)]⟩

/-- Two settings that keep the invariant's hypotheses. -/
theorem witness_EverySettingKeepsTheInvariant :
    State.reset.Inv ∧ (∃ t, stepWith Config.defaults State.reset = .next t) ∧
    ∃ t, stepWith { MOVE_ADDRESSING := .registerIndirect, SC_WORD := 0x10 } State.reset = .next t :=
  ⟨by decide, ⟨_, rfl⟩, ⟨_, rfl⟩⟩

theorem witness_ParametersReachExecutionThroughMoveAlone :
    ∀ (sc : SizeClass) (src dst : Word), Instr.load .byte 0 0 ≠ .move sc src dst := by simp

theorem witness_EverySettingRunsTheDecodedInstruction :
    lastRecord.Running ∧ (lastRecord.pc + 10).toNat + 10 = Config.MEMSIZE ∧
    (Instr.loadi .byte 0x2A 3).wf { SC_WORD := 0x10 } = true ∧
    decode (lastRecord.bytes (lastRecord.pc + 10).toNat 10) { SC_WORD := 0x10 } = .ok (.loadi .byte 0x2A 3) := by
  have hb : lastRecord.bytes (lastRecord.pc + 10).toNat 10 = [0x05, 0, 0, 0, 0, 0x2A, 0, 0, 0, 3] := by decide +kernel
  rw [hb]
  exact ⟨by decide +kernel, by decide +kernel, by decide, by rfl⟩

/-- A setting whose bytes differ, a byte without a name, and a byte for each reading of a jump's size class. -/
theorem witness_SizeClassBytesSelectTheClasses :
    Config.defaults.wf = true ∧ (0x06 : Byte) ∉ Config.defaults.sizeBytes ∧
    ((0x00 : Byte) = Config.SC_BYTE ∧ (0x05 : Byte) = Config.defaults.SC_CONST_LONG ∧
      (0x01 : Byte) ≠ Config.SC_BYTE ∧ (0x01 : Byte) ≠ Config.defaults.SC_CONST_LONG) ∧
    (∀ n, (SizeClass.constLong, n) ∉ sizeWidths) := by
  refine ⟨by decide, by decide, by decide, by simp [sizeWidths]⟩

theorem witness_DecodeOfEncodeIsTheInstruction :
    Config.defaults.wf = true ∧ (Instr.loadi (.other 0xFF) 0xFFFFFFFF 255).wf = true ∧
    (Instr.jnez 255 (.unaccepted .word 0xFFFFFFFF)).wf = true ∧
    ({ SC_WORD := 0x10 } : Config.Params).wf = true ∧ (Instr.loadi (.other 0x01) 0 0).wf { SC_WORD := 0x10 } = true := by
  decide

theorem witness_UnknownOpcodesAreExactly14ToFE :
    (Record.mk 0x14 0 0 0).decode = .error ⟨0x14⟩ ∧ (Record.mk 0xFE 0 0 0).decode = .error ⟨0xFE⟩ ∧
    (Record.mk 0x13 0 0 0).decode = .ok (.copy 0 0) ∧ (Record.mk 0xFF 0 0 0).decode = .ok .diagnop :=
  ⟨by rfl, by rfl, by rfl, by rfl⟩

theorem witness_IgnoredFieldBitsDoNotMatter :
    (0xFFFFFF05 : Word).toNat % 256 = (0x00000005 : Word).toNat % 256 ∧ (0xFFFFFF05 : Word) ≠ 0x00000005 := by decide

/-- A next record inside memory, the last of them, and one outside. -/
theorem witness_PlacedInstructionRunsNext :
    (Instr.hcf).wf = true ∧ (State.reset.pc + 10).toNat + 10 ≤ Config.MEMSIZE ∧
    ((atPc State.reset 0x0027FFEC).pc + 10).toNat + 10 = Config.MEMSIZE ∧
    ¬ ((atPc State.reset 0x0027FFED).pc + 10).toNat + 10 ≤ Config.MEMSIZE := by decide

/-- The last longword, one byte past it, the last record and the top of the address space. -/
theorem witness_MemReadIsBigEndianAndChecked :
    (4 ∈ [1, 2, 4, 10] ∧ (0x0027FFFC : Word).toNat + 4 - 1 < Config.MEMSIZE) ∧
    Config.MEMSIZE ≤ (0x0027FFFD : Word).toNat + 4 - 1 ∧
    (10 ∈ [1, 2, 4, 10] ∧ (0x0027FFF6 : Word).toNat + 10 - 1 < Config.MEMSIZE) ∧
    Config.MEMSIZE ≤ (0xFFFFFFFF : Word).toNat + 1 - 1 := by decide

theorem witness_MemWriteIsBigEndianAndChecked :
    (0x001FFFFF : Word).toNat < Config.ROMSIZE ∧
    (Config.ROMSIZE ≤ (0x0027FFFD : Word).toNat ∧ Config.MEMSIZE ≤ (0x0027FFFD : Word).toNat + 4 - 1) ∧
    (Config.ROMSIZE ≤ (0x00200000 : Word).toNat ∧ (0x0027FFFC : Word).toNat + 4 - 1 < Config.MEMSIZE) := by decide

theorem witness_NarrowLoadsSeeTheStoredLongword :
    (5 : RegField).toNat = (5 : RegIdx).val ∧ (15 : RegField).toNat = (15 : RegIdx).val ∧
    Config.ROMSIZE ≤ (0x0027FFFC : Word).toNat ∧ (0x0027FFFC : Word).toNat + 3 < Config.MEMSIZE ∧
    ∃ t, exec (.store .long 5 0x0027FFFC) (regs [(5, 0x12345678)]) = .next t :=
  ⟨by decide, by decide, by decide, by decide, _, rfl⟩

/-- The stored byte is the last of a record at the start of RAM. -/
theorem witness_NextFetchSeesTheStoredByte :
    let s := atPc State.reset 0x001FFFF6
    (5 : RegField).toNat = (5 : RegIdx).val ∧ Config.ROMSIZE ≤ (0x00200009 : Word).toNat ∧ 9 < 10 ∧
    (0x00200009 : Word).toNat = (s.pc + 10).toNat + 9 ∧ (s.pc + 10).toNat + 10 ≤ Config.MEMSIZE ∧
    ∃ t, exec (.store .byte 5 0x00200009) s = .next t :=
  ⟨by decide, by decide, by decide, by decide, by decide, _, rfl⟩

theorem witness_PixelsLieInTheDisplayWindow : 319 < 320 ∧ 239 < 240 ∧ 0 < 320 ∧ 0 < 240 ∧ 2 < 3 := by decide

theorem witness_DivWritesTheUnsignedQuotient :
    (regs [(1, 1)]).x[1] ≠ 0 ∧ State.reset.x[1] = 0 := by decide

/-- The register fields at the ends of their ranges, as the statements of one-register instructions name them. -/
theorem witness_register_fields :
    (0 : RegField).toNat = (0 : RegIdx).val ∧ (15 : RegField).toNat = (15 : RegIdx).val ∧
    16 ≤ (16 : RegField).toNat ∧ 16 ≤ (255 : RegField).toNat := by decide

/-- The size classes that select a width, and those that do not, as the statements of the moves name them. -/
theorem witness_size_classes :
    (SizeClass.byte, 1) ∈ sizeWidths ∧ (SizeClass.word, 2) ∈ sizeWidths ∧ (SizeClass.long, 4) ∈ sizeWidths ∧
    (∀ n, (SizeClass.constByte, n) ∉ sizeWidths) ∧ (∀ n, (SizeClass.constLong, n) ∉ sizeWidths) ∧
    (∀ n, (SizeClass.other 0x06, n) ∉ sizeWidths) := by
  simp [sizeWidths]

theorem witness_LoadiWritesTheMaskedLiteral :
    ((SizeClass.long, 4) ∈ sizeWidths ∧ (15 : RegField).toNat = (15 : RegIdx).val) ∧
    (∀ n, (SizeClass.constLong, n) ∉ sizeWidths) ∧ ((SizeClass.byte, 1) ∈ sizeWidths ∧ 16 ≤ (16 : RegField).toNat) := by
  simp [sizeWidths]

theorem witness_CopyWritesTheSourceRegister :
    ((0 : RegField).toNat = (0 : RegIdx).val ∧ (15 : RegField).toNat = (15 : RegIdx).val) ∧
    (16 ≤ (16 : RegField).toNat ∨ 16 ≤ (0 : RegField).toNat) := by decide

/-- The last longword of RAM as destination, and V-DM-29, V-DM-28, V-DM-30, V-DM-31. -/
theorem witness_MoveCopiesTheOldSourceBytes :
    (∀ n, (SizeClass.constByte, n) ∉ sizeWidths) ∧ (SizeClass.long, 4) ∈ sizeWidths ∧
    (0x001FFFFF : Word).toNat < Config.ROMSIZE ∧
    (Config.ROMSIZE ≤ (0x00200000 : Word).toNat ∧ Config.MEMSIZE ≤ (0x0027FFFE : Word).toNat + 4 - 1) ∧
    (Config.ROMSIZE ≤ (0x0027FFFE : Word).toNat ∧ (0x00200000 : Word).toNat + 4 - 1 < Config.MEMSIZE ∧
      Config.MEMSIZE ≤ (0x0027FFFE : Word).toNat + 4 - 1) ∧
    (Config.ROMSIZE ≤ (0x0027FFFC : Word).toNat ∧ (0x0027FFFC : Word).toNat + 4 - 1 < Config.MEMSIZE) ∧
    (16 ≤ (0x00000010 : Word).toNat % 256 ∨ 16 ≤ (0x00000000 : Word).toNat % 256) ∧
    ((0x00000005 : Word).toNat % 256 = (5 : RegIdx).val ∧ (0xFFFFFF0F : Word).toNat % 256 = (15 : RegIdx).val) := by
  refine ⟨by simp [sizeWidths], ?_⟩
  decide

theorem witness_LoadReadsBigEndianZeroExtended :
    ((SizeClass.long, 4) ∈ sizeWidths ∧ (15 : RegField).toNat = (15 : RegIdx).val ∧
      (0x0027FFFC : Word).toNat + 4 - 1 < Config.MEMSIZE) ∧
    (∀ n, (SizeClass.constWord, n) ∉ sizeWidths) ∧ 16 ≤ (16 : RegField).toNat ∧
    ((15 : RegField).toNat < 16 ∧ Config.MEMSIZE ≤ (0x0027FFFD : Word).toNat + 4 - 1) := by
  refine ⟨by decide, by simp [sizeWidths], by decide⟩

theorem witness_StoreWritesTheLowBytesBigEndian :
    ((SizeClass.long, 4) ∈ sizeWidths ∧ (15 : RegField).toNat = (15 : RegIdx).val ∧
      Config.ROMSIZE ≤ (0x00200000 : Word).toNat ∧ (0x0027FFFC : Word).toNat + 4 - 1 < Config.MEMSIZE) ∧
    (∀ n, (SizeClass.constWord, n) ∉ sizeWidths) ∧ 16 ≤ (16 : RegField).toNat ∧
    ((15 : RegField).toNat < 16 ∧ (0x001FFFFF : Word).toNat < Config.ROMSIZE) ∧
    (Config.ROMSIZE ≤ (0x0027FFFD : Word).toNat ∧ Config.MEMSIZE ≤ (0x0027FFFD : Word).toNat + 4 - 1) := by
  refine ⟨by decide, by simp [sizeWidths], by decide⟩

theorem witness_SwapExchangesTheHalves :
    (15 : RegField).toNat = (15 : RegIdx).val ∧ 16 ≤ (16 : RegField).toNat := by decide

/-- Two registers, and one register named twice with a third that is neither. -/
theorem witness_ExchangeSwapsTheRegisters :
    ((5 : RegField).toNat = (5 : RegIdx).val ∧ (6 : RegField).toNat = (6 : RegIdx).val ∧ (7 : RegIdx) ≠ 5 ∧
      (7 : RegIdx) ≠ 6) ∧ (16 ≤ (5 : RegField).toNat ∨ 16 ≤ (16 : RegField).toNat) := by decide

theorem witness_NotCopiesTheSourceRegister :
    ((1 : RegField).toNat = (1 : RegIdx).val ∧ (4 : RegField).toNat = (4 : RegIdx).val) ∧
    (16 ≤ (16 : RegField).toNat ∨ 16 ≤ (4 : RegField).toNat) := by decide

theorem witness_AndOrXorCombineBitByBit :
    ((1 : RegField).toNat = (1 : RegIdx).val ∧ (2 : RegField).toNat = (2 : RegIdx).val) ∧
    (16 ≤ (1 : RegField).toNat ∨ 16 ≤ (16 : RegField).toNat) := by decide

theorem witness_JumpWritesTargetMinusTen :
    ((0x02 : Byte) ≠ 0x00 ∧ (0x02 : Byte) ≠ 0x05) ∧ (15 : RegField).toNat = (15 : RegIdx).val ∧
    16 ≤ (16 : RegField).toNat := by decide

theorem witness_JeqzRedirectsOnlyOnZero :
    ((0x01 : Byte) ≠ 0x00 ∧ (0x01 : Byte) ≠ 0x05) ∧
    ((3 : RegField).toNat = (3 : RegIdx).val ∧ (15 : RegField).toNat = (15 : RegIdx).val) ∧
    (16 ≤ (16 : RegField).toNat) ∧ (16 ≤ (3 : RegField).toNat ∨ 16 ≤ (16 : RegField).toNat) ∧
    State.reset.x[3] = 0 ∧ (regs [(3, 1)]).x[3] ≠ 0 := by decide

theorem witness_JnezRedirectsUnlessZero :
    ((0x04 : Byte) ≠ 0x00 ∧ (0x04 : Byte) ≠ 0x05) ∧
    ((0 : RegField).toNat = (0 : RegIdx).val ∧ (15 : RegField).toNat = (15 : RegIdx).val) ∧
    (16 ≤ (255 : RegField).toNat) ∧ (16 ≤ (16 : RegField).toNat ∨ 16 ≤ (0 : RegField).toNat) ∧
    State.reset.x[0] = 0 ∧ (regs [(0, 0x80000000)]).x[0] ≠ 0 := by decide

theorem witness_NextRecordAfterAJumpIsTheTarget :
    (15 : RegField).toNat = (15 : RegIdx).val ∧ (0 : RegField).toNat = (0 : RegIdx).val ∧
    (∃ t, exec (.jump (.literal 0)) State.reset = .next t) ∧ (∃ t, exec (.jump (.register 15)) State.reset = .next t) ∧
    (∃ t, exec (.jeqz 15 (.literal 0)) State.reset = .next t) ∧
    (∃ t, exec (.jnez 15 (.literal 0)) State.reset = .next t) ∧
    (∃ t, exec (.jeqz 15 (.register 0)) State.reset = .next t) ∧
    (∃ t, exec (.jnez 15 (.register 0)) State.reset = .next t) :=
  ⟨by decide, by decide, ⟨_, rfl⟩, ⟨_, rfl⟩, ⟨_, rfl⟩, ⟨_, rfl⟩, ⟨_, rfl⟩, ⟨_, rfl⟩⟩

theorem witness_DebugAppendsTheRegister :
    (9 : RegField).toNat = (9 : RegIdx).val ∧ 16 ≤ (16 : RegField).toNat := by decide

end Sys2Proof.Tests
end

/-! # Scope (spec/00_scope.md): the parameters and the invariant under every setting of them -/

namespace Sys2Proof.Machine

open Sys2Proof

/-! ### Where the parameters reach execution (00_scope.md R6, decisions D3 and D9) -/

@[simp] theorem execWith_move (p : Config.Params) (sc : SizeClass) (src dst : Word) (s : State) :
    execWith p (.move sc src dst) s = moveWith p.MOVE_ADDRESSING sc src dst s := rfl

theorem exec_move (sc : SizeClass) (src dst : Word) (s : State) :
    exec (.move sc src dst) s = moveWith Config.MOVE_ADDRESSING sc src dst s := rfl

/-- No instruction but `move` reads a parameter. -/
theorem execWith_of_ne_move (p : Config.Params) (i : Instr) (s : State)
    (hi : ∀ (sc : SizeClass) (src dst : Word), i ≠ .move sc src dst) : execWith p i s = exec i s := by
  cases i with
  | move sc src dst => exact absurd rfl (hi sc src dst)
  | _ => rfl

theorem exec_eq_execWith_defaults : exec = execWith Config.defaults := by
  funext i s
  by_cases hi : ∃ sc src dst, i = .move sc src dst
  · obtain ⟨sc, src, dst, rfl⟩ := hi
    exact exec_move sc src dst s
  · exact (execWith_of_ne_move _ i s fun sc src dst h => hi ⟨sc, src, dst, h⟩).symm

theorem step_eq_stepWith_defaults (s : State) : step s = stepWith Config.defaults s := by
  rw [step, stepWith, exec_eq_execWith_defaults]

/-- Settles O5. -/
theorem parametersReachExecutionThroughMoveAlone : Obligations.ParametersReachExecutionThroughMoveAlone :=
  ⟨step_eq_stepWith_defaults, fun i s => congrFun (congrFun exec_eq_execWith_defaults i) s,
    fun p s => ⟨fun sc src dst => execWith_move p sc src dst s, fun i => execWith_of_ne_move p i s⟩⟩

/-! ### The fault record (10_state.md R18, 60_exceptions.md R100) -/

/-- A core that has met no fault has a fault record that R18 allows. -/
theorem statusOk_of_clear {s : State} (h : s.fault = .clear) : s.StatusOk := by
  simp [State.StatusOk, h, FaultStatus.clear]

/-- While the core runs, R18 leaves the fault record only one value. -/
theorem fault_eq_clear {s : State} (h : s.StatusOk) (hr : s.Running) : s.fault = .clear := h.1 hr.2

theorem code_toNat_le (k : Fault) : k.code.toNat ≤ 6 := by cases k <;> decide

/-- Taking a fault in a core that is not halted leaves a fault record that R100 allows, when the kinds that record no
address come with address 0. -/
theorem statusOk_raise {s : State} {k : Fault} {a : Word} (op : Byte) (hh : s.halted = false)
    (h0 : k ≠ .memoryProtection → k ≠ .address → a = 0) : (s.raise ⟨k, a⟩ op).StatusOk := by
  refine ⟨fun h => absurd h (code_ne_zero k), code_toNat_le k, fun _ => ⟨rfl, hh⟩, fun h1 h4 => h0 ?_ ?_⟩
  · rintro rfl
    exact h1 rfl
  · rintro rfl
    exact h4 rfl

/-! ### What an instruction and a step keep -/

/-- Every effect of an instruction keeps both stores canonical and in their regions (10_state.md R22). -/
theorem Effect.keeps_memoryOk {m : Config.MoveAddressing} {i : Instr} {s t : State} (h : Effect m i s t)
    (hs : s.MemoryOk) : t.MemoryOk := by
  cases h with
  | writesRam a sc n v _ _ hlo hhi =>
    obtain ⟨hrom, hromIn, hram, hramIn⟩ := hs
    exact ⟨hrom, hromIn, memWrite_keeps_ram s _ a n v (memWrite_ok s a n v hlo hhi) hram hramIn⟩
  | _ => exact hs

/-- Every effect of an instruction in a running core leaves a fault record that R18 allows: only `faults` writes it. -/
theorem Effect.keeps_statusOk {m : Config.MoveAddressing} {i : Instr} {s t : State} (h : Effect m i s t)
    (hr : s.Running) (hs : s.StatusOk) : t.StatusOk := by
  have hc := fault_eq_clear hs hr
  cases h with
  | faults k a _ h0 => exact statusOk_raise i.opcode hr.1 h0
  | _ => exact statusOk_of_clear hc

theorem Effect.keeps_inv {m : Config.MoveAddressing} {i : Instr} {s t : State} (h : Effect m i s t) (hr : s.Running)
    (hs : s.Inv) : t.Inv :=
  ⟨h.keeps_memoryOk hs.1, h.keeps_statusOk hr hs.2⟩

/-- The pre-advance of a running core keeps the invariant. A stopped one is not advanced: there `FAULT_PC` would no longer
be `pc`. -/
theorem preAdvance_inv {s : State} (hr : s.Running) (hs : s.Inv) : s.preAdvance.Inv :=
  ⟨hs.1, statusOk_of_clear ((preAdvance_fault s).trans (fault_eq_clear hs.2 hr))⟩

/-- A step keeps the invariant when its last phase does only what an instruction can do. -/
theorem StepEffect.keeps_inv {p : Config.Params} {run : Instr → State → Host.Outcome State Fault Refusal} {s t : State}
    (h : StepEffect p run s t) (hrun : ∀ i u, run i s.preAdvance = .next u → ∃ m, Effect m i s.preAdvance u)
    (hs : s.Inv) : t.Inv := by
  cases h with
  | inert => exact hs
  | fetchFault hgo => exact ⟨hs.1, statusOk_raise _ ((stopped_eq_false s).1 hgo).1 (by simp)⟩
  | unknown hgo => exact ⟨hs.1, statusOk_raise _ ((stopped_eq_false s).1 hgo).1 (fun _ _ => rfl)⟩
  | runs hgo _ _ i _ _ _ _ hnext =>
    have hr : s.Running := (stopped_eq_false s).1 hgo
    obtain ⟨m, heff⟩ := hrun i t hnext
    exact heff.keeps_inv hr (preAdvance_inv hr hs)

/-- Settles O21, by the cases of a step and of an instruction's effect. -/
theorem everySettingKeepsTheInvariant : Obligations.EverySettingKeepsTheInvariant := fun p _ _ hs h =>
  (stepWith_cases h).keeps_inv (fun i u hu => ⟨p.MOVE_ADDRESSING, execWith_cases p i _ u hu⟩) hs

end Sys2Proof.Machine

/-! # State (spec/10_state.md): reset, the halted flag, the sink, the registers and the jump target -/

namespace Sys2Proof.Machine

open Sys2Proof

/-! ### The invariant (10_state.md R18, R22) -/

/-- Settles O20, by the cases of a step and of an instruction's effect. -/
theorem everyStepKeepsTheInvariant : Obligations.EveryStepKeepsTheInvariant := fun _ _ hs h =>
  (step_cases h).keeps_inv (fun i u hu => ⟨Config.MOVE_ADDRESSING, exec_cases i _ u hu⟩) hs

/-! ### Reset (10_state.md R25, R26; 70_reset_and_hazards.md R122) -/

section Reset

variable {c : Config.Open} {image : List Byte} {s : State}

theorem resetWith_isSome (c : Config.Open) (h : image.length ≤ Config.ROMSIZE) : ∃ s, resetWith c image = some s :=
  ⟨_, resetWith_eq_some.2 ⟨h, rfl⟩⟩

theorem resetWith_eq_none (c : Config.Open) (h : Config.ROMSIZE < image.length) : resetWith c image = none :=
  if_neg (Nat.not_le.2 h)

theorem resetWith_reg (h : resetWith c image = some s) (i : RegIdx) : s.reg i = c.REG_INIT i := by
  obtain ⟨-, rfl⟩ := resetWith_eq_some.1 h
  simp [State.reg]

theorem resetWith_pc (h : resetWith c image = some s) : s.pc = c.PC_RESET := by
  obtain ⟨-, rfl⟩ := resetWith_eq_some.1 h
  rfl

theorem resetWith_halted (h : resetWith c image = some s) : s.halted = false := by
  obtain ⟨-, rfl⟩ := resetWith_eq_some.1 h
  rfl

theorem resetWith_fault (h : resetWith c image = some s) : s.fault = .clear := by
  obtain ⟨-, rfl⟩ := resetWith_eq_some.1 h
  rfl

theorem resetWith_dbg (h : resetWith c image = some s) : s.dbg = [] := by
  obtain ⟨-, rfl⟩ := resetWith_eq_some.1 h
  rfl

/-- ROM after reset: the image, and past its end the fill value. -/
theorem resetWith_byte_rom (h : resetWith c image = some s) {a : Nat} (ha : a < Config.ROMSIZE) :
    s.byte a = image.getD a (c.ROM_FILL a) := by
  obtain ⟨-, rfl⟩ := resetWith_eq_some.1 h
  rw [State.byte, if_pos ha, Memory.read_tabulate, if_pos ⟨Nat.zero_le a, by rwa [Nat.zero_add]⟩]

theorem resetWith_byte_ram (h : resetWith c image = some s) {k : Nat} (hk : k < Config.RAMSIZE) :
    s.byte (Config.ROMSIZE + k) = c.RAM_INIT k := by
  obtain ⟨-, rfl⟩ := resetWith_eq_some.1 h
  rw [State.byte, if_neg (by omega), Memory.read_tabulate, if_pos (by omega), Nat.add_sub_cancel_left]

theorem resetWith_memoryOk (h : resetWith c image = some s) : s.MemoryOk := by
  obtain ⟨-, rfl⟩ := resetWith_eq_some.1 h
  have hrom := Memory.within_tabulate (fun a => image.getD a (c.ROM_FILL a)) 0 Config.ROMSIZE
  rw [Nat.zero_add] at hrom
  exact ⟨Memory.wf_tabulate _ _ _, hrom, Memory.wf_tabulate _ _ _, Memory.within_tabulate _ _ _⟩

end Reset

/-- A store filled with what an unlisted address reads as lists no cell. -/
theorem Memory.tabulate_unlisted (lo n : Nat) : Memory.tabulate (fun _ => Memory.unlisted) lo n = [] :=
  List.eq_nil_iff_forall_not_mem.2 fun c hc =>
    have ⟨_, _, hval, hne⟩ := Memory.mem_tabulate _ lo n c hc
    hne hval

/-- The values this model names for the OPEN parameters are those that an unlisted byte and `State.reset` hold. -/
theorem resetWith_named : resetWith Config.named [] = some State.reset := by
  have hrom : (fun a => ([] : List Byte).getD a (Config.named.ROM_FILL a)) = fun _ => Memory.unlisted := rfl
  have hram : (fun a => Config.named.RAM_INIT (a - Config.ROMSIZE)) = fun _ => Memory.unlisted := rfl
  refine resetWith_eq_some.2 ⟨Nat.zero_le _, ?_⟩
  rw [hrom, hram, Memory.tabulate_unlisted, Memory.tabulate_unlisted]
  rfl

/-- Settles O1, from what `resetWith` leaves in each component. -/
theorem resetSetsTheWholeState : Obligations.ResetSetsTheWholeState := by
  refine ⟨rfl, fun c image => ⟨fun hlen => ?_, resetWith_eq_none c⟩⟩
  obtain ⟨s, h⟩ := resetWith_isSome c hlen
  have hfault := resetWith_fault h
  refine ⟨s, h, resetWith_reg h, resetWith_pc h, resetWith_halted h, ?kind, ?faultPc, ?opcode, ?addr, ?image, ?fill,
    fun k => resetWith_byte_ram h, resetWith_dbg h⟩
  case kind => rw [hfault]; rfl
  case faultPc => rw [hfault]; rfl
  case opcode => rw [hfault]; rfl
  case addr => rw [hfault]; rfl
  case image =>
    intro a ha
    rw [resetWith_byte_rom h (Nat.lt_of_lt_of_le ha hlen), List.getD_eq_getElem _ _ ha]
  case fill =>
    intro a ha hrom
    rw [resetWith_byte_rom h hrom, List.getD_eq_default _ _ ha]

/-- Settles O2. -/
theorem resetStateIsResetWithTheNamedValues : Obligations.ResetStateIsResetWithTheNamedValues :=
  ⟨resetWith_named, reset_pc, by decide⟩

/-- Settles O19: a filled store is canonical, and reset clears the fault record. -/
theorem invariantHoldsAtReset : Obligations.InvariantHoldsAtReset := by
  have hinv : ∀ (c : Config.Open) (image : List Byte) (s : State), resetWith c image = some s → s.Inv :=
    fun _ _ _ h => ⟨resetWith_memoryOk h, statusOk_of_clear (resetWith_fault h)⟩
  exact ⟨hinv, hinv _ _ _ resetWith_named⟩

/-! ### The phases of a step (40_sequencer.md R68, R69) -/

section Step

variable {p : Config.Params} {run : Instr → State → Host.Outcome State Fault Refusal} {s : State}

theorem stepRunning_of_stopped (hs : s.stopped = true) : stepRunning p run s = .next s := if_pos hs

theorem stepRunning_of_fault (hs : s.stopped = false) {c : Cause} {op : Byte}
    (hf : s.preAdvance.fetchInstr p = .error (c, op)) : stepRunning p run s = .next (s.preAdvance.raise c op) := by
  simp [stepRunning, hs, hf]

theorem stepRunning_of_instr (hs : s.stopped = false) {i : Instr} (hf : s.preAdvance.fetchInstr p = .ok i) :
    stepRunning p run s = run i s.preAdvance := by
  simp [stepRunning, hs, hf]

end Step

/-! ### The halted flag (10_state.md R17) -/

/-- Of the effects of an instruction only `halts` touches the flag, and only `hcf` has it. -/
theorem Effect.halted_iff {m : Config.MoveAddressing} {i : Instr} {s t : State} (h : Effect m i s t) :
    t.halted = true ↔ s.halted = true ∨ i = .hcf := by
  cases h with
  | halts hh => simp [hh]
  | redirect a hj =>
    have hh : i ≠ .hcf := by rintro rfl; cases hj
    simp [hh]
  | emits rd d hi => simp [hi]
  | oneRegister | twoRegisters | nothing | writesRam | faults => simp [*]

/-- Settles O14. -/
theorem onlyHcfSetsHalted : Obligations.OnlyHcfSetsHalted :=
  ⟨fun i s t h => (exec_cases i s t h).halted_iff, fun _ _ _ h => resetWith_halted h,
    fun s hs => stepRunning_of_stopped ((stopped_eq_true s).2 (.inl hs)), fun _ => rfl⟩

/-! ### The registers an instruction writes (10_state.md R13) -/

/-- No effect of an instruction changes a register that the table of R13 does not give it. -/
theorem Effect.reg_frame {m : Config.MoveAddressing} {i : Instr} {s t : State} (h : Effect m i s t) {d : RegIdx}
    (hd : writesRegister i d = false) : t.reg d = s.reg d := by
  have ne_of_written : ∀ {e : RegIdx}, writesRegister i e = true → d ≠ e := by
    rintro e he rfl
    simp [hd] at he
  cases h with
  | oneRegister e v he => rw [setReg_reg, if_neg (ne_of_written he)]
  | twoRegisters e e' v w he he' =>
    rw [setReg_reg, if_neg (ne_of_written he'), setReg_reg, if_neg (ne_of_written he)]
  | _ => rfl

/-- Settles O17. -/
theorem registersChangeOnlyAsTabled : Obligations.RegistersChangeOnlyAsTabled :=
  fun i s t _ h hd => (exec_cases i s t h).reg_frame hd

/-! ### The sink (10_state.md R23) -/

/-- The state with other contents of the debug-output sink. -/
def State.withSink (s : State) (l : List Word) : State := { s with dbg := l }

section Sink

variable {s t : State} (l : List Word)

theorem withSink_dbg_self : s.withSink s.dbg = s := rfl

/-! No read of the state looks at the sink, and every update leaves it in place. -/

theorem bytes_withSink (a n : Nat) : (s.withSink l).bytes a n = s.bytes a n := bytes_congr _ _ a n fun _ _ => rfl

theorem memRead_withSink (a : Word) (n : Nat) : (s.withSink l).memRead a n = s.memRead a n := by
  simp only [State.memRead, bytes_withSink]

theorem memWrite_withSink (a : Word) (n v : Nat) :
    (s.withSink l).memWrite a n v = (·.withSink l) <$> s.memWrite a n v := by
  simp only [State.memWrite, map_bind]
  rfl

theorem target_withSink (tg : Target) : (s.withSink l).target tg = s.target tg := by
  cases tg <;> rfl

theorem combine_withSink (rs rd : RegField) (f : Word → Word → Word) :
    (s.withSink l).combine rs rd f = (·.withSink l) <$> s.combine rs rd f := by
  simp only [State.combine, map_bind]
  rfl

theorem jumpWhen_withSink (taken : Word → Bool) (rs : RegField) (tg : Target) :
    (s.withSink l).jumpWhen taken rs tg = (·.withSink l) <$> s.jumpWhen taken rs tg := by
  simp only [State.jumpWhen, map_bind, target_withSink]
  refine bind_congr fun _ => bind_congr fun i => bind_congr fun a => ?_
  exact congrArg Except.ok (apply_ite (State.withSink · l) (taken (s.reg i) = true) (s.jumpTo a) s).symm

theorem fetchInstr_withSink (p : Config.Params) : (s.withSink l).fetchInstr p = s.fetchInstr p := by
  have hfetch : (s.withSink l).fetch = s.fetch := by
    simp only [State.fetch, memRead_withSink]
    rfl
  rw [State.fetchInstr, hfetch, State.fetchInstr]

/-- An instruction whose effects leave the sink in place ends alike with other sink contents, faults included. -/
theorem finish_withSink {l : List Word} {i : Instr} {r r' : Except Cause State} (hr : r' = (·.withSink l) <$> r)
    (h : s.finish i r = .next t) : (s.withSink l).finish i r' = .next (t.withSink l) := by
  subst hr
  rcases finish_eq_next _ _ _ _ h with rfl | ⟨c, rfl, rfl⟩ <;> rfl

/-- Every instruction but `debug` does the same whatever the sink holds, and leaves it in place. -/
theorem exec_withSink {i : Instr} (hi : ∀ rd, i ≠ .debug rd) (h : exec i s = .next t) :
    exec i (s.withSink l) = .next (t.withSink l) := by
  cases i with
  | debug rd => exact absurd rfl (hi rd)
  | hcf => cases h; rfl
  | add => cases h; rfl
  | sub => cases h; rfl
  | mul => cases h; rfl
  | diagnop => cases h; rfl
  | div => exact finish_withSink (by rw [apply_ite (Functor.map _)]; rfl) h
  | loadi sc lit rd => exact finish_withSink (by simp only [map_bind]; rfl) h
  | move sc src dst => exact finish_withSink (by simp only [map_bind, memRead_withSink, memWrite_withSink]; rfl) h
  | load sc a rd => exact finish_withSink (by simp only [map_bind, memRead_withSink]; rfl) h
  | store sc rs a => exact finish_withSink (by simp only [map_bind, memWrite_withSink]; rfl) h
  | swap rd => exact finish_withSink (by simp only [map_bind]; rfl) h
  | exchange rs rd => exact finish_withSink (by simp only [map_bind]; rfl) h
  | copy rs rd => exact finish_withSink (by simp only [map_bind]; rfl) h
  | not rs rd => exact finish_withSink (combine_withSink l ..) h
  | and rs rd => exact finish_withSink (combine_withSink l ..) h
  | or rs rd => exact finish_withSink (combine_withSink l ..) h
  | xor rs rd => exact finish_withSink (combine_withSink l ..) h
  | jump tg => exact finish_withSink (by simp only [map_bind, target_withSink]; rfl) h
  | jeqz rs tg => exact finish_withSink (jumpWhen_withSink l ..) h
  | jnez rs tg => exact finish_withSink (jumpWhen_withSink l ..) h

/-- `run` takes `s` to `t` and, whatever the sink holds, does the same and appends the same values, at most one. -/
def AppendsUnread (run : State → Host.Outcome State Fault Refusal) (s t : State) : Prop :=
  ∃ out : List Word, out.length ≤ 1 ∧ ∀ l, run (s.withSink l) = .next (t.withSink (l ++ out))

variable {run : State → Host.Outcome State Fault Refusal}

theorem appendsUnread_of_silent (h : ∀ l, run (s.withSink l) = .next (t.withSink l)) : AppendsUnread run s t :=
  ⟨[], by simp, by simpa using h⟩

/-- What is appended whatever the sink holds is appended to the sink that `s` has. -/
theorem AppendsUnread.dbg_eq (h : AppendsUnread run s t) (ht : run s = .next t) :
    ∃ out : List Word, out.length ≤ 1 ∧ t.dbg = s.dbg ++ out ∧
      ∀ l, run (s.withSink l) = .next (t.withSink (l ++ out)) := by
  obtain ⟨out, hlen, hrun⟩ := h
  have hself := hrun s.dbg
  rw [withSink_dbg_self, ht, Host.Outcome.next.injEq] at hself
  exact ⟨out, hlen, congrArg State.dbg hself, hrun⟩

theorem exec_debug_ok {rd : RegField} {d : RegIdx} (hd : register rd = .ok d) (s : State) :
    exec (.debug rd) s = .next (s.emit (s.reg d)) := by
  simp [exec, execDebug, hd]

theorem exec_debug_error {rd : RegField} {c : Cause} (hc : register rd = .error c) (s : State) :
    exec (.debug rd) s = .next (s.raise c (Instr.debug rd).opcode) := by
  simp [exec, execDebug, hc]

theorem exec_appendsUnread {i : Instr} (h : exec i s = .next t) : AppendsUnread (exec i) s t := by
  by_cases hi : ∃ rd, i = .debug rd
  · obtain ⟨rd, rfl⟩ := hi
    cases hr : register rd with
    | ok d =>
      rw [exec_debug_ok hr] at h
      cases h
      exact ⟨[s.reg d], by simp, fun l => exec_debug_ok hr (s.withSink l)⟩
    | error c =>
      rw [exec_debug_error hr] at h
      cases h
      exact appendsUnread_of_silent fun l => exec_debug_error hr (s.withSink l)
  · exact appendsUnread_of_silent fun l => exec_withSink l (fun rd h => hi ⟨rd, h⟩) h

/-- The stop test, the fetch and the decode leave the sink to the instruction. -/
theorem step_appendsUnread (h : step s = .next t) : AppendsUnread step s t := by
  cases hs : s.stopped with
  | true =>
    rw [step, stepRunning_of_stopped hs] at h
    cases h
    exact appendsUnread_of_silent fun l => stepRunning_of_stopped (s := s.withSink l) hs
  | false =>
    have hfetch : ∀ l, (s.withSink l).preAdvance.fetchInstr = s.preAdvance.fetchInstr :=
      fun l => fetchInstr_withSink (s := s.preAdvance) l _
    cases hf : s.preAdvance.fetchInstr with
    | error e =>
      rw [step, stepRunning_of_fault hs hf] at h
      cases h
      exact appendsUnread_of_silent fun l => stepRunning_of_fault (s := s.withSink l) hs ((hfetch l).trans hf)
    | ok i =>
      rw [step, stepRunning_of_instr hs hf] at h
      obtain ⟨out, hlen, hrun⟩ := exec_appendsUnread h
      exact ⟨out, hlen, fun l =>
        (stepRunning_of_instr (s := s.withSink l) hs ((hfetch l).trans hf)).trans (hrun l)⟩

end Sink

/-- Settles O16. -/
theorem sinkIsAppendOnlyAndNeverRead : Obligations.SinkIsAppendOnlyAndNeverRead :=
  fun _ _ h => (step_appendsUnread h).dbg_eq h

/-! ### The record after a jump (10_state.md R15, 44_control_transfer.md R92 to R95) -/

/-- A jump writes the target minus 10, so that the pre-advance lands on it. -/
theorem jumpTo_preAdvance_pc (s : State) (a : Word) : (s.jumpTo a).preAdvance.pc = a := by simp

section Jumps

variable {s : State} {tg : Target} {a : Word} {rs : RegField} {i : RegIdx}

/-- A jump accepts the size class of every target that has a value. -/
theorem accepted_of_target (ha : s.target tg = .ok a) : accepted tg = .ok () := by
  cases tg with
  | unaccepted sc f => cases ha
  | _ => rfl

theorem exec_jump (ha : s.target tg = .ok a) : exec (.jump tg) s = .next (s.jumpTo a) := by
  simp [exec, execJump, accepted_of_target ha, ha]

theorem jumpWhen_ok (taken : Word → Bool) (hi : rs.toNat = i.val) (ha : s.target tg = .ok a) :
    s.jumpWhen taken rs tg = .ok (if taken (s.reg i) then s.jumpTo a else s) := by
  simp [State.jumpWhen, accepted_of_target ha, register_ok rs i hi, ha]

theorem exec_jeqz (hi : rs.toNat = i.val) (ha : s.target tg = .ok a) :
    exec (.jeqz rs tg) s = .next (if s.reg i = 0 then s.jumpTo a else s) := by
  simp [exec, execJeqz, jumpWhen_ok _ hi ha, isZero_eq_true]

theorem exec_jnez (hi : rs.toNat = i.val) (ha : s.target tg = .ok a) :
    exec (.jnez rs tg) s = .next (if s.reg i = 0 then s else s.jumpTo a) := by
  simp [exec, execJnez, jumpWhen_ok _ hi ha, isZero]

variable {t : State}

theorem next_pc_of_jump (ha : s.target tg = .ok a) (h : exec (.jump tg) s = .next t) : t.preAdvance.pc = a := by
  rw [exec_jump ha] at h
  cases h
  exact jumpTo_preAdvance_pc s a

theorem next_pc_of_jeqz (hi : rs.toNat = i.val) (ha : s.target tg = .ok a) (h : exec (.jeqz rs tg) s = .next t) :
    t.preAdvance.pc = if s.x[i] = 0 then a else s.pc + 10 := by
  rw [exec_jeqz hi ha] at h
  cases h
  change _ = if s.reg i = 0 then a else s.pc + 10
  split
  · exact jumpTo_preAdvance_pc s a
  · exact preAdvance_pc s

theorem next_pc_of_jnez (hi : rs.toNat = i.val) (ha : s.target tg = .ok a) (h : exec (.jnez rs tg) s = .next t) :
    t.preAdvance.pc = if s.x[i] = 0 then s.pc + 10 else a := by
  rw [exec_jnez hi ha] at h
  cases h
  change _ = if s.reg i = 0 then s.pc + 10 else a
  split
  · exact preAdvance_pc s
  · exact jumpTo_preAdvance_pc s a

end Jumps

/-- Settles O51: a literal target is its own value, a register target the register's. -/
theorem nextRecordAfterAJumpIsTheTarget : Obligations.NextRecordAfterAJumpIsTheTarget := fun s _ =>
  ⟨fun a => next_pc_of_jump (target_literal s a), fun r d hd => next_pc_of_jump (target_register s r d hd),
    fun _ _ hi =>
      ⟨fun a => next_pc_of_jeqz hi (target_literal s a), fun a => next_pc_of_jnez hi (target_literal s a),
        fun r d hd =>
          ⟨next_pc_of_jeqz hi (target_register s r d hd), next_pc_of_jnez hi (target_register s r d hd)⟩⟩⟩

end Sys2Proof.Machine

/-! # Memory (spec/20_memory.md): ROM, checked reads and writes, loads and fetches after a store, the display window -/

namespace Sys2Proof.Machine

open Sys2Proof

/-! ### ROM (20_memory.md R30) -/

theorem byte_eq_of_rom_eq {s t : State} (h : t.rom = s.rom) {b : Nat} (hb : b < Config.ROMSIZE) :
    t.byte b = s.byte b := by
  rw [State.byte, if_pos hb, State.byte, if_pos hb, h]

/-- The only effect that writes memory, `writesRam`, writes the other region. -/
theorem Effect.keeps_rom {m : Config.MoveAddressing} {i : Instr} {s t : State} (h : Effect m i s t) :
    t.rom = s.rom := by
  cases h with
  | _ => rfl

theorem step_keeps_rom {s t : State} (h : step s = .next t) : t.rom = s.rom := by
  cases step_cases h with
  | runs _ _ _ i _ _ _ _ hrun => exact (exec_cases i _ t hrun).keeps_rom
  | inert | fetchFault | unknown => rfl

/-- Settles O13, by the cases of a step and of an instruction's effect. -/
theorem romNeverChanges : Obligations.RomNeverChanges :=
  ⟨fun _ _ h => ⟨step_keeps_rom h, fun _ => byte_eq_of_rom_eq (step_keeps_rom h)⟩, memWrite_protected⟩

/-! ### Reading (20_memory.md R33) -/

/-- Settles O30: a number made of bytes holds each of them at its place. -/
theorem memReadIsBigEndianAndChecked : Obligations.MemReadIsBigEndianAndChecked := by
  refine fun s a n _ => ⟨memRead_error s a n, fun hin => ⟨_, memRead_ok s a n hin, ?_, byte_of_bytes s a.toNat n⟩⟩
  have hlt := beNat_lt (s.bytes a.toNat n)
  rwa [length_bytes] at hlt

/-! ### The state after a write (20_memory.md R34) -/

/-- The state with the low `n` bytes of `v` in RAM from `a` on, most significant first: what `MemWrite` leaves where it is
not refused (`memWrite_eq_stored`). -/
def State.stored (s : State) (a n v : Nat) : State := { s with ram := s.ram.writeBytes a (beBytes n v) }

section Stored

variable (s : State) {a n k : Nat} (v : Nat)

theorem memWrite_eq_stored {a : Word} (hram : Config.ROMSIZE ≤ a.toNat) (hin : a.toNat + n - 1 < Config.MEMSIZE) :
    s.memWrite a n v = .ok (s.stored a.toNat n v) :=
  memWrite_ok s a n v hram hin

@[simp] theorem stored_pc (a n v : Nat) : (s.stored a n v).pc = s.pc := rfl

theorem stored_byte_inside (hram : Config.ROMSIZE ≤ a) (hk : k < n) :
    (s.stored a n v).byte (a + k) = BitVec.ofNat 8 (v / 256 ^ (n - 1 - k)) := by
  have hin : a ≤ a + k ∧ a + k - a < (beBytes n v).length := by simpa using hk
  rw [State.stored, byte_ram_writeBytes s a _ hram, dif_pos hin, beBytes_getElem, Nat.add_sub_cancel_left]

theorem stored_byte_outside (hram : Config.ROMSIZE ≤ a) {b : Nat} (hb : b < a ∨ a + n ≤ b) :
    (s.stored a n v).byte b = s.byte b := by
  have hout : ¬ (a ≤ b ∧ b - a < (beBytes n v).length) := by
    rw [length_beBytes]
    omega
  rw [State.stored, byte_ram_writeBytes s a _ hram, dif_neg hout]

/-- Any `m` consecutive bytes of a stored number are the bytes of the number shifted down to them. -/
theorem stored_bytes_within (hram : Config.ROMSIZE ≤ a) {m : Nat} (hkm : k + m ≤ n) :
    (s.stored a n v).bytes (a + k) m = beBytes m (v / 256 ^ (n - k - m)) := by
  refine List.ext_getElem (by simp) fun j h1 _ => ?_
  have hj : j < m := by simpa using h1
  have hexp : n - 1 - (k + j) = n - k - m + (m - 1 - j) := by omega
  rw [bytes_getElem, beBytes_getElem, Nat.add_assoc, stored_byte_inside s v hram (by omega), hexp, Nat.pow_add,
    Nat.div_div_eq_div_mul]

end Stored

/-- Settles O31. -/
theorem memWriteIsBigEndianAndChecked : Obligations.MemWriteIsBigEndianAndChecked := fun s a n v _ =>
  ⟨memWrite_protected s a n v, memWrite_outside s a n v, fun hram hin =>
    ⟨_, memWrite_eq_stored s v hram hin, rfl, fun _ => stored_byte_inside s v hram,
      fun _ => stored_byte_outside s v hram⟩⟩

/-! ### Loads after a store (20_memory.md R35) -/

section LoadAfterStore

variable {s : State} {sc : SizeClass} {n : Nat} {a : Word}

/-- A store whose checks pass. -/
theorem exec_store_ok {rs : RegField} {i : RegIdx} (hn : width sc = .ok n) (hi : rs.toNat = i.val)
    (hram : Config.ROMSIZE ≤ a.toNat) (hin : a.toNat + n - 1 < Config.MEMSIZE) :
    exec (.store sc rs a) s = .next (s.stored a.toNat n (s.reg i).toNat) := by
  simp [exec, execStore, hn, register_ok rs i hi, memWrite_eq_stored s _ hram hin]

/-- A load whose checks pass. -/
theorem exec_load_ok {rd : RegField} {d : RegIdx} (hn : width sc = .ok n) (hd : rd.toNat = d.val)
    (hin : a.toNat + n - 1 < Config.MEMSIZE) :
    exec (.load sc a rd) s = .next (s.setReg d (BitVec.ofNat 32 (beNat (s.bytes a.toNat n)))) := by
  simp [exec, execLoad, hn, register_ok rd d hd, memRead_ok s a n hin]

/-- Address arithmetic up to the end of memory does not wrap. -/
theorem toNat_add_of_inside {k : Nat} (h : a.toNat + k ≤ Config.MEMSIZE) :
    (a + BitVec.ofNat 32 k).toNat = a.toNat + k := by
  have hmem : Config.MEMSIZE < 2 ^ 32 := by decide
  rw [BitVec.toNat_add, BitVec.toNat_ofNat, Nat.add_mod_mod, Nat.mod_eq_of_lt (by omega)]

/-- A load of `m` bytes from offset `k` of `n` stored bytes gives the stored number's bits there, zero-extended. -/
theorem exec_load_stored {rd : RegField} {d : RegIdx} {m k v : Nat} (hm : width sc = .ok m) (hd : rd.toNat = d.val)
    (hram : Config.ROMSIZE ≤ a.toNat) (hin : a.toNat + n - 1 < Config.MEMSIZE) (hkm : k + m ≤ n) :
    exec (.load sc (a + BitVec.ofNat 32 k) rd) (s.stored a.toNat n v) =
      .next ((s.stored a.toNat n v).setReg d (BitVec.ofNat 32 (v / 256 ^ (n - k - m) % 256 ^ m))) := by
  have haddr : (a + BitVec.ofNat 32 k).toNat = a.toNat + k := toNat_add_of_inside (by omega)
  rw [exec_load_ok hm hd (by omega), haddr, stored_bytes_within s v hram hkm, beNat_beBytes]

end LoadAfterStore

/-- Settles O32: the word at offset 1 and the byte at offset 3 of the four stored bytes. -/
theorem narrowLoadsSeeTheStoredLongword : Obligations.NarrowLoadsSeeTheStoredLongword := by
  intro s t rs i d rd a hi hd hram hmem hstore
  have hin : a.toNat + 4 - 1 < Config.MEMSIZE := by omega
  rw [exec_store_ok width_long hi hram hin] at hstore
  cases hstore
  have hmiddle : s.x[i].toNat / 256 % 65536 = (s.reg i).toNat / 256 ^ (4 - 1 - 2) % 256 ^ 2 := by simp [State.reg]
  have hlow : s.x[i].toNat % 256 = (s.reg i).toNat / 256 ^ (4 - 3 - 1) % 256 ^ 1 := by simp [State.reg]
  rw [hmiddle, hlow]
  exact ⟨exec_load_stored (k := 1) width_word hd hram hin (by decide),
    exec_load_stored (k := 3) width_byte hd hram hin (by decide)⟩

/-! ### A fetch after a store (20_memory.md R43) -/

/-- Byte `k` of a fetched record is the byte at `pc + k` (30_encoding.md R46). -/
theorem byte_of_fetch {s : State} {rec : RecordWord} (h : s.fetch = .ok rec) {k : Nat} (hk : k < 10) :
    rec.extractLsb' (8 * (9 - k)) 8 = s.byte (s.pc.toNat + k) := by
  by_cases hm : Config.MEMSIZE ≤ s.pc.toNat + 9
  · rw [fetch_error s hm] at h
    cases h
  · rw [fetch_ok s (by omega), Except.ok.injEq] at h
    have hlt := beNat_lt (s.bytes s.pc.toNat 10)
    rw [length_bytes] at hlt
    rw [← byte_of_bytes s s.pc.toNat 10 k hk, ← h]
    apply BitVec.eq_of_toNat_eq
    rw [BitVec.extractLsb'_toNat, BitVec.toNat_ofNat, BitVec.toNat_ofNat,
      Nat.mod_eq_of_lt (b := 2 ^ 80) (by omega), Nat.shiftRight_eq_div_pow, Nat.pow_mul]

/-- Settles O33: the fetched record holds the byte at `a`, which is the one the store wrote. -/
theorem nextFetchSeesTheStoredByte : Obligations.NextFetchSeesTheStoredByte := by
  intro s t rs i a k hi hram hk ha hmem hstore
  rw [exec_store_ok width_byte hi hram (by omega)] at hstore
  cases hstore
  have hfetch := fetch_ok (s.stored a.toNat 1 (s.reg i).toNat).preAdvance (by rw [preAdvance_pc, stored_pc]; omega)
  have hstored := stored_byte_inside s (s.reg i).toNat hram Nat.one_pos
  rw [Nat.add_zero] at hstored
  refine ⟨_, hfetch, ?_⟩
  rw [byte_of_fetch hfetch hk, preAdvance_byte, preAdvance_pc, stored_pc, ← ha, hstored]
  apply BitVec.eq_of_toNat_eq
  simp [State.reg]

/-! ### The display window (20_memory.md R29) -/

/-- `read_display` gives the bytes of the window in address order. -/
theorem readDisplay_getElem? (s : State) {j : Nat} (hj : j < Config.SCREEN_BYTES) :
    (readDisplay s)[j]? = some (s.byte (Config.SCREEN_BASE + j)) := by
  have hlen : j < (readDisplay s).length := by simpa [readDisplay] using hj
  rw [List.getElem?_eq_getElem hlen]
  exact congrArg some (bytes_getElem s _ _ j hlen)

/-- Settles O34: the last byte of the last pixel is the last byte of the window. -/
theorem pixelsLieInTheDisplayWindow : Obligations.PixelsLieInTheDisplayWindow := by
  refine ⟨rfl, rfl, fun s px py hx hy => ?_⟩
  have haddr : pixelAddress px py = 0x247C00 + 3 * (px + py * 320) := rfl
  refine ⟨by omega, by omega, haddr, rfl, fun k hk => ?_⟩
  have hbytes : Config.SCREEN_BYTES = 230400 := rfl
  rw [readDisplay_getElem? s (by omega), ← Nat.add_assoc]
  rfl

end Sys2Proof.Machine

/-! # Encoding (spec/30_encoding.md): the record's bytes, the opcode byte, the size classes and the ignored fields -/

namespace Sys2Proof

open Sys2Proof.Machine

variable {p : Config.Params}

/-! ### What the decoder reads under each opcode byte (30_encoding.md R51, R54) -/

section DecodeEquations

variable (sc : Byte) (src dst : Word)

@[simp] theorem Record.decode_hcf : (Record.mk 0x00#8 sc src dst).decode p = .ok .hcf := rfl
@[simp] theorem Record.decode_add : (Record.mk 0x01#8 sc src dst).decode p = .ok .add := rfl
@[simp] theorem Record.decode_sub : (Record.mk 0x02#8 sc src dst).decode p = .ok .sub := rfl
@[simp] theorem Record.decode_div : (Record.mk 0x03#8 sc src dst).decode p = .ok .div := rfl
@[simp] theorem Record.decode_mul : (Record.mk 0x04#8 sc src dst).decode p = .ok .mul := rfl
@[simp] theorem Record.decode_loadi :
    (Record.mk 0x05#8 sc src dst).decode p = .ok (.loadi (.ofByte sc p) src (regField dst)) := rfl
@[simp] theorem Record.decode_move :
    (Record.mk 0x06#8 sc src dst).decode p = .ok (.move (.ofByte sc p) src dst) := rfl
@[simp] theorem Record.decode_load :
    (Record.mk 0x07#8 sc src dst).decode p = .ok (.load (.ofByte sc p) src (regField dst)) := rfl
@[simp] theorem Record.decode_store :
    (Record.mk 0x08#8 sc src dst).decode p = .ok (.store (.ofByte sc p) (regField src) dst) := rfl
@[simp] theorem Record.decode_swap : (Record.mk 0x09#8 sc src dst).decode p = .ok (.swap (regField dst)) := rfl
@[simp] theorem Record.decode_exchange :
    (Record.mk 0x0A#8 sc src dst).decode p = .ok (.exchange (regField src) (regField dst)) := rfl
@[simp] theorem Record.decode_not :
    (Record.mk 0x0B#8 sc src dst).decode p = .ok (.not (regField src) (regField dst)) := rfl
@[simp] theorem Record.decode_and :
    (Record.mk 0x0C#8 sc src dst).decode p = .ok (.and (regField src) (regField dst)) := rfl
@[simp] theorem Record.decode_or :
    (Record.mk 0x0D#8 sc src dst).decode p = .ok (.or (regField src) (regField dst)) := rfl
@[simp] theorem Record.decode_xor :
    (Record.mk 0x0E#8 sc src dst).decode p = .ok (.xor (regField src) (regField dst)) := rfl
@[simp] theorem Record.decode_jump :
    (Record.mk 0x0F#8 sc src dst).decode p = .ok (.jump (.ofField (.ofByte sc p) src)) := rfl
@[simp] theorem Record.decode_jeqz :
    (Record.mk 0x10#8 sc src dst).decode p = .ok (.jeqz (regField src) (.ofField (.ofByte sc p) dst)) := rfl
@[simp] theorem Record.decode_jnez :
    (Record.mk 0x11#8 sc src dst).decode p = .ok (.jnez (regField src) (.ofField (.ofByte sc p) dst)) := rfl
@[simp] theorem Record.decode_debug : (Record.mk 0x12#8 sc src dst).decode p = .ok (.debug (regField dst)) := rfl
@[simp] theorem Record.decode_copy :
    (Record.mk 0x13#8 sc src dst).decode p = .ok (.copy (regField src) (regField dst)) := rfl
@[simp] theorem Record.decode_diagnop : (Record.mk 0xFF#8 sc src dst).decode p = .ok .diagnop := rfl

end DecodeEquations

/-! ### The size class in a record (30_encoding.md R48, R51) -/

@[simp] theorem Target.sizeClass_ofField (sc : SizeClass) (f : Word) : (Target.ofField sc f).sizeClass = sc := by
  cases sc <;> rfl

/-- The size class that an instruction's record carries, none where R51 ignores the size-class byte. -/
def Instr.sizeClass : Instr → Option SizeClass
  | .loadi sc _ _ | .move sc _ _ | .load sc _ _ | .store sc _ _ => some sc
  | .jump t | .jeqz _ t | .jnez _ t => some t.sizeClass
  | _ => none

theorem Instr.wf_sizeClass {i : Instr} (hi : i.wf p = true) : ∀ sc ∈ i.sizeClass, sc.wf p = true := by
  cases i with
  | loadi sc | move sc | load sc | store sc => simpa [Instr.sizeClass, Instr.wf] using hi
  | jump t | jeqz _ t | jnez _ t => simpa [Instr.sizeClass] using Target.wf_sizeClass p t hi
  | _ => simp [Instr.sizeClass]

/-- A decoded instruction's size class is the one that the record's size-class byte selects. -/
theorem sizeClass_of_decode {r : Record} {i : Instr} (hd : r.decode p = .ok i) :
    ∀ sc ∈ i.sizeClass, sc = SizeClass.ofByte r.sc p := by
  unfold Record.decode at hd
  split at hd <;> cases hd <;> simp [Instr.sizeClass]

/-- The decoder gives only terms that stand for a record (R57). -/
theorem wf_of_decode {r : Record} {i : Instr} (hd : r.decode p = .ok i) : i.wf p = true := by
  have hsc := SizeClass.wf_ofByte p r.sc
  unfold Record.decode at hd
  split at hd <;> cases hd <;> simp [Instr.wf, hsc, Target.wf_ofField]

/-! ### Decoding an encoded instruction (30_encoding.md R45, R46) -/

/-- The record of an instruction decodes to it when the byte written for its size class selects that class again. -/
theorem decode_record {i : Instr} (hi : i.wf p = true)
    (hsc : ∀ sc ∈ i.sizeClass, SizeClass.ofByte (sc.toByte p) p = sc) : (i.record p).decode p = .ok i := by
  cases i with
  | loadi sc | move sc | load sc | store sc => simp [Instr.record, hsc sc rfl]
  | jump t | jeqz _ t | jnez _ t => simp [Instr.record, hsc t.sizeClass rfl, Target.ofField_field p t hi]
  | _ => simp [Instr.record]

/-- The ten bytes of a record's number, read back in memory order, decode as the number does. -/
theorem decode_beBytes {rec : RecordWord} {i : Instr} (h : decodeRecord rec p = .ok i) :
    decode (beBytes Config.RECORD_SIZE rec.toNat) p = .ok i := by
  have hlen : (beBytes Config.RECORD_SIZE rec.toNat).length = Config.RECORD_SIZE := length_beBytes _ _
  have hnum : BitVec.ofNat 80 (beNat (beBytes Config.RECORD_SIZE rec.toNat)) = rec := by
    have hlt : rec.toNat < 256 ^ Config.RECORD_SIZE := rec.isLt
    rw [beNat_beBytes, Nat.mod_eq_of_lt hlt, BitVec.ofNat_toNat, BitVec.setWidth_eq]
  rw [decode, if_neg (by omega), List.take_of_length_le hlen.le, hnum, h]

/-- Settles O23: where the six bytes differ, the byte written for a well-formed size class selects it again. -/
theorem decodeOfEncodeIsTheInstruction : Obligations.DecodeOfEncodeIsTheInstruction := by
  intro p i hp hi
  have hrec : (i.record p).decode p = .ok i :=
    decode_record hi fun sc h => SizeClass.ofByte_toByte p hp sc (Instr.wf_sizeClass hi sc h)
  exact decode_beBytes ((decodeRecord_number _).trans hrec)

/-- Settles O24: a decoded size class is what some byte selects, so writing that byte selects it again under every
setting, also where two of the six bytes coincide. -/
theorem decoderIsTotalAndCanonical : Obligations.DecoderIsTotalAndCanonical := by
  intro p rec
  cases hd : decodeRecord rec p with
  | error u => exact .inr ⟨u, rfl, opcode_of_unknown hd⟩
  | ok i =>
    have hwf : i.wf p = true := wf_of_decode hd
    have hrec : (i.record p).decode p = .ok i := decode_record hwf fun sc h => by
      rw [sizeClass_of_decode hd sc h, SizeClass.toByte_ofByte]
    exact .inl ⟨i, rfl, hwf, opcode_of_decode hd, (decodeRecord_number _).trans hrec⟩

/-! ### The opcode byte (30_encoding.md R54, R55) -/

theorem Instr.opcode_range (i : Instr) : i.opcode.toNat < 0x14 ∨ i.opcode.toNat = 0xFF := by
  cases i <;> simp [Instr.opcode]

/-- The verdict "unknown opcode" is left for the opcode bytes of no instruction. -/
theorem opcode_range_of_unknown {r : Record} {u : UnknownOpcode} (h : r.decode p = .error u) :
    0x14 ≤ r.opcode.toNat ∧ r.opcode.toNat ≤ 0xFE := by
  unfold Record.decode at h
  split at h
  case h_22 =>
    simp only [imp_false] at *
    bv_omega
  all_goals cases h

/-- Settles O25: the ranges of the two verdicts exclude each other, so each verdict fixes its range. -/
theorem unknownOpcodesAreExactly14ToFE : Obligations.UnknownOpcodesAreExactly14ToFE := by
  intro p r
  cases hd : r.decode p with
  | error u =>
    have hu : u = ⟨r.opcode⟩ := congrArg UnknownOpcode.mk (opcode_of_unknown hd)
    have hrange := opcode_range_of_unknown hd
    subst hu
    exact ⟨iff_of_true hrange rfl, iff_of_false (by omega) (by simp)⟩
  | ok i =>
    have hrange := i.opcode_range
    rw [opcode_of_decode hd] at hrange
    exact ⟨iff_of_false (by omega) (by simp), iff_of_true hrange ⟨i, rfl⟩⟩

/-! ### Ignored fields (30_encoding.md R52, decision D5) -/

/-- A register field is read through its low byte alone (10_state.md R11). -/
theorem regField_congr {f g : Word} (h : f.toNat % 256 = g.toNat % 256) : regField f = regField g := by
  apply BitVec.eq_of_toNat_eq
  simpa [regField] using h

@[simp] theorem SizeClass.ofByte_SC_BYTE : SizeClass.ofByte 0x00#8 p = .byte := rfl

/-- Settles O26: by the decoder's equations, the two records agree in everything that their opcode reads. -/
theorem ignoredFieldBitsDoNotMatter : Obligations.IgnoredFieldBitsDoNotMatter := by
  intro p sc sc' src src' dst dst'
  refine ⟨by simp, fun hdst => ?_, fun hsrc => ?_, fun hsrc hdst => ?_, by simp⟩
  · simp [regField_congr hdst]
  · simp [regField_congr hsrc, Target.ofField]
  · simp [regField_congr hsrc, regField_congr hdst, Target.ofField]

/-! ### The size-class bytes (30_encoding.md R48, decision D3) -/

/-- A byte that is not the class's own does not select the class. -/
theorem SizeClass.ofByte_ne {b : Byte} {sc : SizeClass} (h : b ≠ sc.toByte p) : SizeClass.ofByte b p ≠ sc :=
  fun hb => h (by rw [← hb, SizeClass.toByte_ofByte])

theorem SizeClass.ofByte_of_not_mem {b : Byte} (h : b ∉ p.sizeBytes) : SizeClass.ofByte b p = .other b := by
  simp only [Config.Params.sizeBytes, List.mem_cons, List.not_mem_nil, or_false, not_or] at h
  obtain ⟨hbyte, hword, hlong, hcbyte, hcword, hclong⟩ := h
  simp [SizeClass.ofByte, hbyte, hword, hlong, hcbyte, hcword, hclong]

/-! ### A jump's target field (44_control_transfer.md R92) -/

theorem Target.ofField_SC_CONST_LONG (hp : p.wf = true) (f : Word) :
    Target.ofField (SizeClass.ofByte p.SC_CONST_LONG p) f = .literal f :=
  congrArg (Target.ofField · f) (SizeClass.ofByte_toByte p hp .constLong rfl)

theorem Target.ofField_of_ne {b : Byte} (hbyte : b ≠ Config.SC_BYTE) (hlong : b ≠ p.SC_CONST_LONG) (f : Word) :
    Target.ofField (SizeClass.ofByte b p) f = .unaccepted (SizeClass.ofByte b p) f := by
  have hne_byte : SizeClass.ofByte b p ≠ .byte := SizeClass.ofByte_ne hbyte
  have hne_long : SizeClass.ofByte b p ≠ .constLong := SizeClass.ofByte_ne hlong
  cases hsc : SizeClass.ofByte b p with
  | byte => exact absurd hsc hne_byte
  | constLong => exact absurd hsc hne_long
  | _ => rfl

/-! ### The widths (30_encoding.md R49) -/

theorem width_eq_ok_iff (sc : SizeClass) (n : Nat) : width sc = .ok n ↔ (sc, n) ∈ sizeWidths := by
  refine ⟨mem_sizeWidths, fun h => ?_⟩
  simp only [sizeWidths, List.mem_cons, Prod.mk.injEq, List.not_mem_nil, or_false] at h
  obtain ⟨rfl, rfl⟩ | ⟨rfl, rfl⟩ | ⟨rfl, rfl⟩ := h <;> rfl

/-- A size class without a width is an `IllegalSizeFault` (R49). -/
theorem width_eq_illegalSize {sc : SizeClass} (h : ∀ n, (sc, n) ∉ sizeWidths) :
    width sc = .error { kind := .illegalSize } := by
  cases hw : width sc with
  | ok n => exact absurd (mem_sizeWidths hw) (h n)
  | error c => rw [cause_of_width hw]

/-- Settles O27. -/
theorem sizeClassBytesSelectTheClasses : Obligations.SizeClassBytesSelectTheClasses := by
  refine ⟨rfl, rfl, rfl, rfl, rfl, rfl, fun p hp => ?_, width_eq_ok_iff, fun _ => width_eq_illegalSize, rfl, rfl, rfl⟩
  have hclass := SizeClass.ofByte_toByte p hp
  refine ⟨hclass .byte rfl, hclass .word rfl, hclass .long rfl, hclass .constByte rfl, hclass .constWord rfl,
    hclass .constLong rfl, fun _ => SizeClass.ofByte_of_not_mem, fun sc src dst =>
      ⟨decodeRecord_number _, decodeRecord_number _, decodeRecord_number _, decodeRecord_number _, fun t t' h => ?_⟩⟩
  have hread : t = .ofField (.ofByte sc p) src ∧ t' = .ofField (.ofByte sc p) dst := by
    obtain ⟨rfl, rfl, rfl⟩ | ⟨rfl, rfl, rfl⟩ | ⟨hbyte, hlong, rfl, rfl⟩ := h
    · exact ⟨rfl, rfl⟩
    · simp [Target.ofField_SC_CONST_LONG hp]
    · simp [Target.ofField_of_ne hbyte hlong]
  obtain ⟨rfl, rfl⟩ := hread
  exact ⟨decodeRecord_number _, decodeRecord_number _, decodeRecord_number _⟩

end Sys2Proof

/-! # Sequencer (spec/40_sequencer.md): the phases of a step, the stopped core, unknown opcodes, `pc`, hcf, a placed
record, bounded and unbounded runs -/

namespace Sys2Proof.Machine

open Sys2Proof

/-! ### The fetched instruction (40_sequencer.md R69) -/

/-- The decoder on the ten bytes of a whole record answers what it answers on their number. -/
theorem decodeRecord_of_decode {p : Config.Params} {bs : List Byte} {i : Instr} (hlen : bs.length = Config.RECORD_SIZE)
    (h : decode bs p = .ok i) : decodeRecord (BitVec.ofNat 80 (beNat bs)) p = .ok i := by
  rw [decode, if_neg (by omega), List.take_of_length_le hlen.le] at h
  cases hd : decodeRecord (BitVec.ofNat 80 (beNat bs)) p with
  | ok j =>
    rw [hd] at h
    cases h
    rfl
  | error u =>
    rw [hd] at h
    cases h

theorem fetchInstr_of_decode {p : Config.Params} {s : State} {i : Instr} (hin : s.pc.toNat + 10 ≤ Config.MEMSIZE)
    (h : decode (s.bytes s.pc.toNat 10) p = .ok i) : s.fetchInstr p = .ok i := by
  have hdec := decodeRecord_of_decode (length_bytes s s.pc.toNat 10) h
  simp only [State.fetchInstr, fetch_ok s (by omega), hdec]

@[simp] theorem preAdvance_bytes (s : State) (a n : Nat) : s.preAdvance.bytes a n = s.bytes a n :=
  bytes_congr _ _ a n fun _ _ => rfl

/-- A running core whose next record decodes enters the last phase with that instruction, `pc` on the record. -/
theorem stepRunning_of_decode {p : Config.Params} {run : Instr → State → Host.Outcome State Fault Refusal} {s : State}
    {i : Instr} (hr : s.Running) (hin : (s.pc + 10).toNat + 10 ≤ Config.MEMSIZE)
    (h : decode (s.bytes (s.pc + 10).toNat 10) p = .ok i) : stepRunning p run s = run i s.preAdvance := by
  rw [← preAdvance_bytes] at h
  exact stepRunning_of_instr ((stopped_eq_false s).2 hr) (fetchInstr_of_decode hin h)

/-- Settles O4. -/
theorem stepRunsTheDecodedInstruction : Obligations.StepRunsTheDecodedInstruction :=
  fun _ _ hr hin _ h => stepRunning_of_decode hr hin h

/-- Settles O6. -/
theorem everySettingRunsTheDecodedInstruction : Obligations.EverySettingRunsTheDecodedInstruction :=
  fun _ _ _ hr hin _ h => stepRunning_of_decode hr hin h

/-! ### The stopped core (40_sequencer.md R68, decision D14) -/

theorem result_of_stopped {s : State} (h : s.stopped = true) :
    s.result = if s.halted then .halt else .fault s.fault := by
  rw [State.result]
  split
  · rfl
  · next hh => rw [if_pos (by simpa [State.stopped, hh] using h)]

/-- Settles O7. -/
theorem stoppedCoreIsInert : Obligations.StoppedCoreIsInert := by
  intro s h
  have hs := (stopped_eq_true s).2 h
  exact ⟨stepRunning_of_stopped hs, result_of_stopped hs⟩

/-! ### No step refuses or stops the model (40_sequencer.md R72, 60_exceptions.md R108) -/

theorem finish_isNext (s : State) (i : Instr) (r : Except Cause State) : ∃ t, s.finish i r = .next t := by
  cases r with
  | ok t => exact ⟨t, rfl⟩
  | error c => exact ⟨_, rfl⟩

/-- Every arm of `exec` is a next state or ends in `finish`. -/
theorem exec_isNext (i : Instr) (s : State) : ∃ t, exec i s = .next t := by
  cases i with
  | hcf | add | sub | mul | diagnop => exact ⟨_, rfl⟩
  | _ => exact finish_isNext _ _ _

/-- Settles O10: the stop test, then a fault before there is an instruction, then the instruction. -/
theorem everyStepAnswersANextState : Obligations.EveryStepAnswersANextState := by
  intro s
  cases hs : s.stopped with
  | true => exact ⟨s, stepRunning_of_stopped hs⟩
  | false =>
    cases hf : s.preAdvance.fetchInstr with
    | error e => exact ⟨_, stepRunning_of_fault hs hf⟩
    | ok i =>
      rw [step, stepRunning_of_instr hs hf]
      exact exec_isNext i s.preAdvance

/-! ### Unknown opcodes (40_sequencer.md R75, 60_exceptions.md R102) -/

theorem fetchInstr_of_unknown {p : Config.Params} {s : State} (hin : s.pc.toNat + 10 ≤ Config.MEMSIZE)
    (hlo : 0x14 ≤ (s.byte s.pc.toNat).toNat) (hhi : (s.byte s.pc.toNat).toNat ≤ 0xFE) :
    s.fetchInstr p = .error ({ kind := .unknownOpcode }, s.byte s.pc.toNat) := by
  have hfetch := fetch_ok s (by omega)
  have hop := opcode_of_fetch hfetch
  rw [← hop] at hlo hhi ⊢
  have hdec := (unknownOpcodesAreExactly14ToFE p _).1.1 ⟨hlo, hhi⟩
  simp only [State.fetchInstr, hfetch, decodeRecord, hdec]

/-- Settles O9. -/
theorem unknownOpcodeTakesUnknownOpcodeFault : Obligations.UnknownOpcodeTakesUnknownOpcodeFault :=
  fun s hr hin hlo hhi =>
    stepRunning_of_fault ((stopped_eq_false s).2 hr) (fetchInstr_of_unknown (s := s.preAdvance) hin hlo hhi)

/-! ### The program counter (40_sequencer.md R70) -/

/-- Of the effects of an instruction only `redirect`, which is a jump's, writes `pc`. -/
theorem Effect.keeps_pc {m : Config.MoveAddressing} {i : Instr} {s t : State} (h : Effect m i s t)
    (hi : isJump i = false) : t.pc = s.pc := by
  cases h with
  | redirect a hj => simp [hi] at hj
  | _ => rfl

/-- Settles O15. -/
theorem onlyJumpsWriteThePc : Obligations.OnlyJumpsWriteThePc := fun i s t hi h => (exec_cases i s t h).keeps_pc hi

/-! ### hcf (40_sequencer.md R74) -/

/-- Settles O35. -/
theorem hcfSetsHaltedOnly : Obligations.HcfSetsHaltedOnly :=
  ⟨fun sc src dst => (decodeRecord_number _).trans (Record.decode_hcf sc src dst),
    fun s => ⟨rfl, result_of_stopped (s := s.halt) rfl⟩⟩

/-! ### A placed record (70_reset_and_hazards.md R122; notes/assumptions/5.md) -/

section Placed

variable (s : State)

@[simp] theorem readyToFetch_x : s.readyToFetch.x = s.x := rfl
@[simp] theorem readyToFetch_dbg : s.readyToFetch.dbg = s.dbg := rfl
@[simp] theorem readyToFetch_halted : s.readyToFetch.halted = false := rfl
@[simp] theorem readyToFetch_fault : s.readyToFetch.fault = .clear := rfl
@[simp] theorem readyToFetch_byte (b : Nat) : s.readyToFetch.byte b = s.byte b := rfl

theorem canFetch_iff : s.canFetch = true ↔ (s.pc + 10).toNat + 10 ≤ Config.MEMSIZE := decide_eq_true_iff

theorem readyToFetch_pc :
    s.readyToFetch.pc = if (s.pc + 10).toNat + 10 ≤ Config.MEMSIZE then s.pc else Config.PC_RESET :=
  if_congr (canFetch_iff s) rfl rfl

/-- A ready state's next record is in memory: at `PC_RESET` it is the one at address 0. -/
theorem readyToFetch_inside : (s.readyToFetch.pc + 10).toNat + 10 ≤ Config.MEMSIZE := by
  rw [readyToFetch_pc]
  split
  · assumption
  · decide

@[simp] theorem placeRecord_x (bs : List Byte) : (s.placeRecord bs).x = s.x := pokeBytes_x ..
@[simp] theorem placeRecord_pc (bs : List Byte) : (s.placeRecord bs).pc = s.pc := pokeBytes_pc ..
@[simp] theorem placeRecord_halted (bs : List Byte) : (s.placeRecord bs).halted = s.halted := pokeBytes_halted ..
@[simp] theorem placeRecord_fault (bs : List Byte) : (s.placeRecord bs).fault = s.fault := pokeBytes_fault ..
@[simp] theorem placeRecord_dbg (bs : List Byte) : (s.placeRecord bs).dbg = s.dbg := pokeBytes_dbg ..

theorem placeRecord_bytes {bs : List Byte} (hlen : bs.length = 10) :
    (s.placeRecord bs).bytes (s.pc + 10).toNat 10 = bs := by
  rw [← hlen]
  exact bytes_pokeBytes s _ bs

theorem placeRecord_byte_outside {bs : List Byte} (hlen : bs.length = 10) {b : Nat}
    (hb : b < (s.pc + 10).toNat ∨ (s.pc + 10).toNat + 10 ≤ b) : (s.placeRecord bs).byte b = s.byte b := by
  rw [State.placeRecord, pokeBytes_byte]
  exact dif_neg (by change ¬ ((s.pc + 10).toNat ≤ b ∧ b - (s.pc + 10).toNat < bs.length); omega)

theorem withFetchWord_encode (i : Instr) :
    s.withFetchWord 80 (encode i).toNat = s.readyToFetch.placeRecord (encodeBytes i) := by
  rw [State.withFetchWord, tableWordBytes, Nat.mod_eq_of_lt (encode i).isLt, encodeBytes]

end Placed

/-- Settles O29: the placed record decodes to the instruction, since the six default size-class bytes differ. -/
theorem placedInstructionRunsNext : Obligations.PlacedInstructionRunsNext := by
  intro s i hi
  have hlen : (encodeBytes i).length = 10 := length_beBytes ..
  have hbytes := placeRecord_bytes s.readyToFetch hlen
  have hdec : decode (encodeBytes i) = .ok i := decodeOfEncodeIsTheInstruction _ i Config.defaults_wf hi
  rw [withFetchWord_encode]
  refine ⟨(s.readyToFetch.placeRecord (encodeBytes i)).preAdvance, stepRunning_of_decode ?running ?inside ?decodes,
    by simp, by simp, by simp, by simp, by simp [readyToFetch_pc], ?bytes, ?outside⟩
  case running => simp [State.Running, FaultStatus.clear]
  case inside => simpa using readyToFetch_inside s
  case decodes => rwa [placeRecord_pc, hbytes]
  case bytes => rw [preAdvance_bytes, preAdvance_pc, placeRecord_pc, hbytes]
  case outside =>
    intro b hb
    rw [preAdvance_pc, placeRecord_pc] at hb
    rw [preAdvance_byte, placeRecord_byte_outside s.readyToFetch hlen hb, readyToFetch_byte]

/-! ### Bounded and unbounded runs (40_sequencer.md R73) -/

section Trace

variable {p : Config.Params} {trace : Nat → State} (hstep : ∀ k, stepWith p (trace k) = .next (trace (k + 1)))
include hstep

/-- A run follows the trace while its states are running. -/
theorem runFor_add_of_running (n : Nat) {k : Nat} (hrun : ∀ j, 1 ≤ j → j ≤ k → (trace j).Running) :
    runFor (k + n) (trace 0) p = runFor n (trace k) p := by
  induction k generalizing n with
  | zero => rw [Nat.zero_add]
  | succ k ih =>
    have hgo : (trace (k + 1)).stopped = false := (stopped_eq_false _).2 (hrun (k + 1) (by omega) le_rfl)
    rw [Nat.add_right_comm, Nat.add_assoc, ih (n + 1) fun j h1 hj => hrun j h1 (by omega), runFor_of_go (hstep k) hgo]

theorem runFor_of_running {n : Nat} (hrun : ∀ k, 1 ≤ k → k ≤ n → (trace k).Running) :
    runFor n (trace 0) p = .next (.boundReached, trace n) :=
  runFor_add_of_running hstep 0 hrun

theorem runFor_of_first_stop {m n : Nat} (hm : 1 ≤ m) (hrun : ∀ k, 1 ≤ k → k < m → (trace k).Running)
    (hstop : ¬ (trace m).Running) (hn : m ≤ n) : runFor n (trace 0) p = .next ((trace m).result, trace m) := by
  obtain ⟨k, rfl⟩ : ∃ k, m = k + 1 := ⟨m - 1, by omega⟩
  obtain ⟨j, rfl⟩ : ∃ j, n = k + (j + 1) := ⟨n - (k + 1), by omega⟩
  have hs : (trace (k + 1)).stopped = true := by
    rw [← Bool.not_eq_false]
    exact fun h => hstop ((stopped_eq_false _).1 h)
  rw [runFor_add_of_running hstep (j + 1) fun i h1 hi => hrun i h1 (by omega), runFor_of_stop (hstep k) hs]

end Trace

theorem RunUntilHalt_some_iff {p : Config.Params} {s t u : State} {n : Nat} {r r' : Report}
    (h : runFor n s p = .next (r, t)) : RunUntilHalt (some n) s r' u p ↔ r' = r ∧ u = t := by
  rw [RunUntilHalt_some, h, Host.Outcome.next.injEq, Prod.mk.injEq, eq_comm, @eq_comm _ t]

/-- Settles O22: a bounded run is known on each side of the first stop, and an unbounded one answers what some bounded
run answers that did not end at its bound. -/
theorem runUntilHaltStopsAtTheFirstStop : Obligations.RunUntilHaltStopsAtTheFirstStop := by
  intro p trace hstep
  refine ⟨fun n hrun r t => RunUntilHalt_some_iff (runFor_of_running hstep hrun), fun m hm hrun hstop => ?_,
    fun hrun r t h => ?_⟩
  · have hrunFor {n : Nat} := runFor_of_first_stop (n := n) hstep hm hrun hstop
    refine ⟨fun n hn r t => RunUntilHalt_some_iff (hrunFor hn), fun r t => ⟨fun h => ?_, ?_⟩⟩
    · obtain ⟨hr, n, hn⟩ := RunUntilHalt_none.1 h
      by_cases hmn : m ≤ n
      · exact (RunUntilHalt_some_iff (hrunFor hmn)).1 hn
      · have hbound := runFor_of_running (n := n) hstep fun k h1 hk => hrun k h1 (by omega)
        exact absurd ((RunUntilHalt_some_iff hbound).1 hn).1 hr
    · rintro ⟨rfl, rfl⟩
      exact RunUntilHalt_none.2 ⟨result_ne_boundReached, m, hrunFor le_rfl⟩
  · obtain ⟨hr, n, hn⟩ := RunUntilHalt_none.1 h
    have hbound := runFor_of_running (n := n) hstep fun k h1 _ => hrun k h1
    exact hr ((RunUntilHalt_some_iff hbound).1 hn).1

end Sys2Proof.Machine

/-! # Validation (spec/40_sequencer.md R71; 60_exceptions.md R105, R106; decisions D4, D5, D16, D20): what an instruction
checks, and that its execution checks it first -/

namespace Sys2Proof

open Sys2Proof.Machine

/-! ### What an instruction checks -/

/-- The register field of a jump target. -/
def Target.registerFields : Target → List RegField
  | .register r => [r]
  | .literal _ => []
  | .unaccepted _ _ => []

/-- The fields that an instruction reads as registers under a setting of `MOVE_ADDRESSING`, in R71's order. -/
def Instr.registerFields (i : Instr) (m : Config.MoveAddressing := Config.MOVE_ADDRESSING) : List RegField :=
  match i with
  | .loadi _ _ rd | .load _ _ rd | .swap rd | .debug rd => [rd]
  | .store _ rs _ => [rs]
  | .move _ src dst =>
    match m with
    | .direct => []
    | .registerIndirect => [regField src, regField dst]
  | .exchange rs rd | .copy rs rd | .not rs rd | .and rs rd | .or rs rd | .xor rs rd => [rs, rd]
  | .jump t => t.registerFields
  | .jeqz rs t | .jnez rs t => rs :: t.registerFields
  | .hcf | .add | .sub | .div | .mul | .diagnop => []

/-- The size check of an instruction. -/
def Instr.checkSize : Instr → Except Cause Unit
  | .loadi sc _ _ | .move sc _ _ | .load sc _ _ | .store sc _ _ => do
    let _ ← width sc
    .ok ()
  | .jump t | .jeqz _ t | .jnez _ t => accepted t
  | _ => .ok ()

/-- The register check of fields in order. -/
def checkRegisters : List RegField → Except Cause Unit
  | [] => .ok ()
  | r :: rs => do
    let _ ← register r
    checkRegisters rs

/-- The validation of R71. `execWith_guarded` ties it to execution. -/
def Instr.validate (i : Instr) (m : Config.MoveAddressing := Config.MOVE_ADDRESSING) : Except Cause Unit := do
  i.checkSize
  checkRegisters (i.registerFields m)

theorem checkRegisters_ok {fs : List RegField} (h : ∀ f ∈ fs, f.toNat < 16) : checkRegisters fs = .ok () := by
  induction fs with
  | nil => rfl
  | cons f fs ih =>
    obtain ⟨hf, hfs⟩ := List.forall_mem_cons.1 h
    rw [checkRegisters, register_ok f ⟨f.toNat, hf⟩ rfl, bind_ok, ih hfs]

theorem checkRegisters_error {fs : List RegField} (h : ∃ f ∈ fs, 16 ≤ f.toNat) :
    checkRegisters fs = .error { kind := .illegalRegister } := by
  induction fs with
  | nil => simp at h
  | cons f fs ih =>
    by_cases hf : 16 ≤ f.toNat
    · rw [checkRegisters, register_error f hf, bind_error]
    · rw [checkRegisters, register_ok f ⟨f.toNat, by omega⟩ rfl, bind_ok, ih (by simpa [hf] using h)]

section Validate

variable {i : Instr} {m : Config.MoveAddressing}

theorem Instr.validate_of_size {c : Cause} (hs : i.checkSize = .error c) : i.validate m = .error c := by
  rw [Instr.validate, hs, bind_error]

theorem Instr.validate_of_register (hs : i.checkSize = .ok ()) (hr : ∃ f ∈ i.registerFields m, 16 ≤ f.toNat) :
    i.validate m = .error { kind := .illegalRegister } := by
  rw [Instr.validate, hs, bind_ok, checkRegisters_error hr]

theorem Instr.validate_ok (hs : i.checkSize = .ok ()) (hr : ∀ f ∈ i.registerFields m, f.toNat < 16) :
    i.validate m = .ok () := by
  rw [Instr.validate, hs, bind_ok, checkRegisters_ok hr]

end Validate

/-! ### What a record's instruction checks (30_encoding.md R50) -/

@[simp] theorem regField_toNat (f : Word) : (regField f).toNat = f.toNat % 256 := by
  simp [regField]

/-- The width of R49 belongs to the size classes that R50 gives to `loadi`, `move`, `load` and `store`. -/
theorem width_check_ofByte (b : Byte) :
    (width (SizeClass.ofByte b) >>= fun _ => .ok ()) =
      if b ∈ [0x00#8, 0x01#8, 0x02#8] then Except.ok () else .error { kind := .illegalSize } := by
  rcases SizeClass.ofByte_cases Config.defaults b with ⟨rfl, h⟩ | ⟨rfl, h⟩ | ⟨rfl, h⟩ | ⟨rfl, h⟩ | ⟨rfl, h⟩ | ⟨rfl, h⟩ |
    ⟨hb, h⟩
  case inr.inr.inr.inr.inr.inr =>
    have hb' : b ∉ [0x00#8, 0x01#8, 0x02#8] := fun hm => hb (List.mem_append_left [0x03#8, 0x04#8, 0x05#8] hm)
    rw [h, if_neg hb', width_other, bind_error]
  all_goals rw [h]; rfl

theorem accepted_ofField (b : Byte) (f : Word) :
    accepted (.ofField (.ofByte b) f) =
      if b ∈ [0x00#8, 0x05#8] then .ok () else .error { kind := .illegalSize } := by
  by_cases h0 : b = 0x00#8
  · subst h0
    rfl
  · by_cases h5 : b = 0x05#8
    · subst h5
      rfl
    · rw [Target.ofField_of_ne h0 h5, if_neg (by simp [h0, h5]), accepted_unaccepted]

theorem Target.registerFields_ofField (b : Byte) (f : Word) :
    (Target.ofField (.ofByte b) f).registerFields = if b = 0x00#8 then [regField f] else [] := by
  by_cases h0 : b = 0x00#8
  · subst h0
    rfl
  · rw [if_neg h0]
    have hne : SizeClass.ofByte b ≠ .byte := SizeClass.ofByte_ne h0
    cases hsc : SizeClass.ofByte b with
    | byte => exact absurd hsc hne
    | _ => rfl

theorem checkSize_of_decode {r : Record} {i : Instr} (h : r.decode = .ok i) :
    i.checkSize = if acceptsSize r then .ok () else .error { kind := .illegalSize } := by
  unfold Record.decode at h
  split at h <;> cases h <;>
    simp [*, Instr.checkSize, acceptsSize, width_check_ofByte, accepted_ofField]

theorem registerFields_of_decode {r : Record} {i : Instr} (h : r.decode = .ok i) :
    i.registerFields = (readAsRegisters r).map regField := by
  unfold Record.decode at h
  split at h <;> cases h <;>
    simp [*, Instr.registerFields, Config.MOVE_ADDRESSING, readAsRegisters, Target.registerFields_ofField,
      apply_ite (List.map regField), apply_ite (List.cons (regField r.src))]

end Sys2Proof

namespace Sys2Proof.Machine

open Sys2Proof

/-! ### Results that raise neither fault of validation -/

/-- The result is no fault of validation, and a success leaves the fault record as it is. -/
def Quiet (s : State) : Except Cause State → Prop
  | .ok t => t.fault = s.fault
  | .error c => c.kind ≠ .illegalSize ∧ c.kind ≠ .illegalRegister

section Quiet

variable {s : State}

theorem quiet_memWrite (a : Word) (n v : Nat) : Quiet s (s.memWrite a n v) := by
  rcases memWrite_cases s a n v with ⟨-, h⟩ | ⟨-, -, h⟩ | ⟨-, -, h⟩ <;> rw [h] <;> simp [Quiet]

theorem quiet_memRead (a : Word) (n : Nat) {f : Nat → Except Cause State} (hf : ∀ v, Quiet s (f v)) :
    Quiet s (s.memRead a n >>= f) := by
  cases h : s.memRead a n with
  | ok v => exact hf v
  | error c => simp [cause_of_memRead h, Quiet]

theorem quiet_checkWritable (a : Word) {f : Unit → Except Cause State} (hf : Quiet s (f ())) :
    Quiet s (checkWritable a >>= f) := by
  cases h : checkWritable a with
  | ok u => exact hf
  | error c => simp [cause_of_checkWritable h, Quiet]

end Quiet

/-! ### Validation comes first -/

/-- `r` starts with the checks `v`: it ends with the first that fails, and where they pass it raises neither fault of
validation. -/
inductive Guarded (s : State) : Except Cause Unit → Except Cause State → Prop
  | passes {r : Except Cause State} (h : Quiet s r) : Guarded s (.ok ()) r
  | refuses (c : Cause) : Guarded s (.error c) (.error c)

section Guarded

variable {s : State} {v : Except Cause Unit}

/-- A check that both do first. -/
theorem Guarded.check {α : Type} (k : Except Cause α) {f : α → Except Cause State} (h : ∀ a, Guarded s v (f a)) :
    Guarded s (k >>= fun _ => v) (k >>= f) := by
  cases k with
  | ok a => exact h a
  | error c => exact .refuses c

/-- The width of a size class, and then what `v` checks. -/
theorem Guarded.ofWidth (sc : SizeClass) {f : Nat → Except Cause State} (h : ∀ n, Guarded s v (f n)) :
    Guarded s ((width sc >>= fun _ => .ok ()) >>= fun _ => v) (width sc >>= f) := by
  rw [bind_assoc]
  exact .check _ h

theorem Guarded.oneRegister (r : RegField) {f : RegIdx → Except Cause State} (h : ∀ d, Quiet s (f d)) :
    Guarded s (checkRegisters [r]) (register r >>= f) :=
  .check _ fun d => .passes (h d)

theorem Guarded.twoRegisters (r r' : RegField) {f : RegIdx → RegIdx → Except Cause State} (h : ∀ d e, Quiet s (f d e)) :
    Guarded s (checkRegisters [r, r']) (do let d ← register r; let e ← register r'; f d e) :=
  .check _ fun d => .oneRegister r' (h d)

/-- The register field of a target whose size class is accepted. -/
theorem Guarded.ofTarget {t : Target} (ht : accepted t = .ok ()) {f : Addr → Except Cause State} (h : ∀ a, Quiet s (f a)) :
    Guarded s (checkRegisters t.registerFields) (s.target t >>= f) := by
  cases t with
  | register r =>
    rw [State.target, bind_assoc]
    exact .oneRegister r fun d => h (s.reg d)
  | literal a => exact .passes (h a)
  | unaccepted sc f => cases ht

/-- The size class of a jump, and then what `v` checks. -/
theorem Guarded.ofAccepted (t : Target) {r : Except Cause State} (h : accepted t = .ok () → Guarded s v r) :
    Guarded s (accepted t >>= fun _ => v) (accepted t >>= fun _ => r) := by
  cases ht : accepted t with
  | ok u => exact h ht
  | error c => exact .refuses c

theorem guarded_jumpWhen (taken : Word → Bool) (rs : RegField) (t : Target) :
    Guarded s (do accepted t; checkRegisters (rs :: t.registerFields)) (s.jumpWhen taken rs t) :=
  .ofAccepted t fun ht => .check _ fun i => .ofTarget ht fun a => by
    change State.fault (if taken (s.reg i) then s.jumpTo a else s) = s.fault
    split <;> rfl

/-- The addresses of `move` are checked as its register fields are. -/
theorem guarded_moveAddresses (m : Config.MoveAddressing) (sc : SizeClass) (src dst : Word)
    {f : Addr × Addr → Except Cause State} (h : ∀ a, Quiet s (f a)) :
    Guarded s (checkRegisters ((Instr.move sc src dst).registerFields m)) (s.moveAddresses m src dst >>= f) := by
  cases m with
  | direct => exact .passes (h _)
  | registerIndirect =>
    simp only [State.moveAddresses, bind_assoc]
    exact .twoRegisters _ _ fun i j => h (s.reg i, s.reg j)

end Guarded

/-- The result of an instruction, before it is taken as a next state, starts with the instruction's validation. -/
theorem execWith_guarded (p : Config.Params) (i : Instr) (s : State) :
    ∃ r, execWith p i s = s.finish i r ∧ Guarded s (i.validate p.MOVE_ADDRESSING) r := by
  cases i with
  | hcf => exact ⟨.ok s.halt, rfl, .passes rfl⟩
  | add => exact ⟨.ok _, rfl, .passes rfl⟩
  | sub => exact ⟨.ok _, rfl, .passes rfl⟩
  | mul => exact ⟨.ok _, rfl, .passes rfl⟩
  | diagnop => exact ⟨.ok s, rfl, .passes rfl⟩
  | div => exact ⟨_, rfl, .passes (by split <;> simp [Quiet, State.arith])⟩
  | loadi sc lit rd => exact ⟨_, rfl, .ofWidth sc fun n => .oneRegister rd fun d => rfl⟩
  | move sc src dst =>
    exact ⟨_, rfl, .ofWidth sc fun n => guarded_moveAddresses _ sc src dst fun ⟨sa, da⟩ =>
      quiet_checkWritable da (quiet_memRead sa n fun v => quiet_memWrite da n v)⟩
  | load sc a rd => exact ⟨_, rfl, .ofWidth sc fun n => .oneRegister rd fun d => quiet_memRead a n fun v => rfl⟩
  | store sc rs a => exact ⟨_, rfl, .ofWidth sc fun n => .oneRegister rs fun i => quiet_memWrite a n _⟩
  | swap rd => exact ⟨_, rfl, .oneRegister rd fun d => rfl⟩
  | debug rd => exact ⟨_, rfl, .oneRegister rd fun d => rfl⟩
  | exchange rs rd => exact ⟨_, rfl, .twoRegisters rs rd fun i d => rfl⟩
  | copy rs rd => exact ⟨_, rfl, .twoRegisters rs rd fun i d => rfl⟩
  | not rs rd => exact ⟨_, rfl, .twoRegisters rs rd fun i d => rfl⟩
  | and rs rd => exact ⟨_, rfl, .twoRegisters rs rd fun i d => rfl⟩
  | or rs rd => exact ⟨_, rfl, .twoRegisters rs rd fun i d => rfl⟩
  | xor rs rd => exact ⟨_, rfl, .twoRegisters rs rd fun i d => rfl⟩
  | jump t => exact ⟨_, rfl, .ofAccepted t fun ht => .ofTarget ht fun a => rfl⟩
  | jeqz rs t => exact ⟨_, rfl, guarded_jumpWhen isZero rs t⟩
  | jnez rs t => exact ⟨_, rfl, guarded_jumpWhen (fun v => !isZero v) rs t⟩

section Execution

variable {p : Config.Params} {i : Instr} {s t : State}

/-- A failed validation is taken before any effect. -/
theorem execWith_of_refused {c : Cause} (h : i.validate p.MOVE_ADDRESSING = .error c) (s : State) :
    execWith p i s = .next (s.raise c i.opcode) := by
  obtain ⟨r, hexec, hr⟩ := execWith_guarded p i s
  rw [h] at hr
  cases hr
  exact hexec

theorem code_ne_illegalSize {k : Fault} (h : k ≠ .illegalSize) : k.code ≠ 0x05 := by
  revert h
  cases k <;> decide

theorem code_ne_illegalRegister {k : Fault} (h : k ≠ .illegalRegister) : k.code ≠ 0x06 := by
  revert h
  cases k <;> decide

/-- After a passed validation the fault record holds neither fault of validation, unless it did before. -/
theorem kind_of_validated (h : i.validate p.MOVE_ADDRESSING = .ok ()) (hs : s.fault.FAULT_KIND = 0x00)
    (ht : execWith p i s = .next t) : t.fault.FAULT_KIND ≠ 0x05 ∧ t.fault.FAULT_KIND ≠ 0x06 := by
  obtain ⟨r, hexec, hr⟩ := execWith_guarded p i s
  rw [h] at hr
  cases hr with
  | passes hquiet =>
    rcases finish_eq_next _ _ _ _ (hexec.symm.trans ht) with rfl | ⟨c, rfl, rfl⟩
    · rw [show t.fault = s.fault from hquiet, hs]
      decide
    · exact ⟨code_ne_illegalSize hquiet.1, code_ne_illegalRegister hquiet.2⟩

end Execution

/-- Settles O12: a record's size class and register fields are what its instruction validates, and validation comes
first. -/
theorem validationFaultsOnSizeThenRegister : Obligations.ValidationFaultsOnSizeThenRegister := by
  refine ⟨fun r i hdec => ?record, fun s sc src dst => ⟨fun hsc => ?size, fun n hsc hreg => ?register⟩⟩
  case record =>
    have hsize := checkSize_of_decode hdec
    have hfields := registerFields_of_decode hdec
    rw [exec_eq_execWith_defaults, ← opcode_of_decode hdec]
    refine ⟨fun ha => ?_, fun ha hreg => ?_, fun ha hreg s t => ?_⟩
    · exact execWith_of_refused (Instr.validate_of_size (by rw [hsize, ha]; rfl))
    · exact execWith_of_refused
        (Instr.validate_of_register (by rw [hsize, ha]; rfl) (by simpa [Config.defaults, hfields] using hreg))
    · exact kind_of_validated
        (Instr.validate_ok (by rw [hsize, ha]; rfl) (by simpa [Config.defaults, hfields] using hreg))
  case size =>
    exact execWith_of_refused (p := { MOVE_ADDRESSING := .registerIndirect }) (i := .move sc src dst)
      (Instr.validate_of_size (by rw [Instr.checkSize, width_eq_illegalSize hsc, bind_error])) s
  case register =>
    have hsize : (Instr.move sc src dst).checkSize = .ok () := by
      rw [Instr.checkSize, (width_eq_ok_iff sc n).2 hsc, bind_ok]
    exact execWith_of_refused (p := { MOVE_ADDRESSING := .registerIndirect }) (i := .move sc src dst)
      (Instr.validate_of_register hsize (by simpa [Instr.registerFields] using hreg)) s

end Sys2Proof.Machine

/-! # Fixed-register arithmetic (spec/41_arithmetic.md): add, sub, div, mul -/

namespace Sys2Proof.Machine

open Sys2Proof

/-! ### The word operations as integer arithmetic modulo 2^32 (41_arithmetic.md R76) -/

section WordArithmetic

variable (a b : Word)

theorem word_add_eq_ofNat : a + b = BitVec.ofNat 32 (a.toNat + b.toNat) := by
  rw [BitVec.ofNat_add, BitVec.ofNat_toNat, BitVec.ofNat_toNat, BitVec.setWidth_eq, BitVec.setWidth_eq]

theorem word_mul_eq_ofNat : a * b = BitVec.ofNat 32 (a.toNat * b.toNat) := by
  rw [BitVec.ofNat_mul, BitVec.ofNat_toNat, BitVec.ofNat_toNat, BitVec.setWidth_eq, BitVec.setWidth_eq]

/-- The exact difference may be negative, and is reduced as an integer. -/
theorem word_sub_eq_ofInt : a - b = BitVec.ofInt 32 ((a.toNat : Int) - (b.toNat : Int)) :=
  calc a - b = a + -b := BitVec.sub_eq_add_neg a b
    _ = BitVec.ofInt 32 (a.toNat : Int) + -BitVec.ofInt 32 (b.toNat : Int) := by simp
    _ = BitVec.ofInt 32 ((a.toNat : Int) - (b.toNat : Int)) := by
      rw [Int.sub_eq_add_neg, BitVec.ofInt_add, BitVec.ofInt_neg]

theorem word_udiv_eq_ofNat : a.udiv b = BitVec.ofNat 32 (a.toNat / b.toNat) :=
  BitVec.udiv_def

end WordArithmetic

/-! ### What the four instructions do (41_arithmetic.md R77 to R80) -/

section FixedRegisters

variable (s : State)

/-- The fixed registers of 10_state.md R12 are `x[0]`, `x[1]` and `x[2]`; nothing else is touched. -/
theorem arith_eq {f : Word → Word → Word} {v : Word} (h : f s.x[0] s.x[1] = v) :
    s.arith f = { s with x := s.x.set 2 v } := by
  subst h
  rfl

theorem exec_add : exec .add s = .next (s.arith fun a b => a + b) := rfl

theorem exec_sub : exec .sub s = .next (s.arith fun a b => a - b) := rfl

theorem exec_mul : exec .mul s = .next (s.arith fun a b => a * b) := rfl

theorem exec_div_of_ne_zero (h : s.reg secondOperand ≠ 0) : exec .div s = .next (s.arith BitVec.udiv) := by
  rw [exec, execDiv, if_neg h, finish_ok]

/-- The fault is taken in the state the instruction started from, so the result register keeps its value. -/
theorem exec_div_of_zero (h : s.reg secondOperand = 0) :
    exec .div s = .next (s.raise { kind := .arithmetic } Instr.div.opcode) := by
  rw [exec, execDiv, if_pos h, finish_error]

end FixedRegisters

/-- Settles O37. -/
theorem addSubMulWriteTheWrappedResult : Obligations.AddSubMulWriteTheWrappedResult := by
  refine ⟨fun sc src dst => ⟨?decodeAdd, ?decodeSub, ?decodeMul⟩, fun s => ⟨?add, ?sub, ?mul⟩⟩
  case decodeAdd => exact (decodeRecord_number _).trans (Record.decode_add sc src dst)
  case decodeSub => exact (decodeRecord_number _).trans (Record.decode_sub sc src dst)
  case decodeMul => exact (decodeRecord_number _).trans (Record.decode_mul sc src dst)
  case add => rw [exec_add, arith_eq s (word_add_eq_ofNat _ _)]
  case sub => rw [exec_sub, arith_eq s (word_sub_eq_ofInt _ _)]
  case mul => rw [exec_mul, arith_eq s (word_mul_eq_ofNat _ _)]

/-- Settles O38: the divisor decides between the quotient and the fault. -/
theorem divWritesTheUnsignedQuotient : Obligations.DivWritesTheUnsignedQuotient := by
  refine ⟨fun sc src dst => ?decode, fun s => ⟨fun hne => ?quotient, fun hzero => ?fault⟩⟩
  case decode => exact (decodeRecord_number _).trans (Record.decode_div sc src dst)
  case quotient => rw [exec_div_of_ne_zero s hne, arith_eq s (word_udiv_eq_ofNat _ _)]
  case fault => exact exec_div_of_zero s hzero

end Sys2Proof.Machine

/-! # Data movement (spec/42_data_movement.md): the memory frame, loadi, copy, move, load, store, swap, exchange -/

namespace Sys2Proof.Machine

open Sys2Proof

/-! ### The memory frame (20_memory.md R37; 42_data_movement.md R83, R85) -/

/-- The only effect that writes memory, `writesRam`, writes the bytes that the instruction stores. -/
theorem Effect.byte_frame {m : Config.MoveAddressing} {i : Instr} {s t : State} (h : Effect m i s t) {b : Nat}
    (hb : ∀ a sc n, storesTo i s m = some (a, sc) → (sc, n) ∈ sizeWidths → b < a.toNat ∨ a.toNat + n ≤ b) :
    t.byte b = s.byte b := by
  cases h with
  | writesRam a sc n v hs hn hram => exact stored_byte_outside s v hram (hb a sc n hs hn)
  | _ => rfl

theorem width_of_mem {sc : SizeClass} {n : Nat} (h : (sc, n) ∈ sizeWidths) : width sc = .ok n :=
  (width_eq_ok_iff sc n).2 h

/-- A size class selects one width at most. -/
theorem sizeWidths_unique {sc : SizeClass} {m n : Nat} (hm : (sc, m) ∈ sizeWidths) (hn : (sc, n) ∈ sizeWidths) :
    m = n :=
  Except.ok.inj ((width_of_mem hm).symm.trans (width_of_mem hn))

/-- Settles O18, by the cases of an instruction's effect. -/
theorem memoryChangesOnlyWhereStored : Obligations.MemoryChangesOnlyWhereStored := by
  intro i s t h
  have heff := exec_cases i s t h
  refine ⟨fun hnone b => heff.byte_frame ?none, fun a sc n hsome hn b hb => heff.byte_frame ?stored,
    fun a sc hsome hnone b => heff.byte_frame ?noWidth⟩
  case none =>
    intro a sc n hs
    rw [hnone] at hs
    cases hs
  case stored =>
    intro a' sc' n' hs hn'
    rw [hsome] at hs
    cases hs
    rwa [sizeWidths_unique hn' hn]
  case noWidth =>
    intro a' sc' n' hs hn'
    rw [hsome] at hs
    cases hs
    exact absurd hn' (hnone n')

/-! ### The faults of validation (40_sequencer.md R71) -/

section Refused

variable (i : Instr) {sc : SizeClass} {n : Nat}

theorem exec_of_refused {c : Cause} (h : i.validate = .error c) (s : State) :
    exec i s = .next (s.raise c i.opcode) := by
  rw [exec_eq_execWith_defaults]
  exact execWith_of_refused h s

theorem exec_of_size (h : i.checkSize = .error { kind := .illegalSize }) (s : State) :
    exec i s = .next (s.raise { kind := .illegalSize } i.opcode) :=
  exec_of_refused i (Instr.validate_of_size h) s

theorem exec_of_register (hsize : i.checkSize = .ok ()) (hreg : ∃ f ∈ i.registerFields, 16 ≤ f.toNat)
    (s : State) : exec i s = .next (s.raise { kind := .illegalRegister } i.opcode) :=
  exec_of_refused i (Instr.validate_of_register hsize hreg) s

/-! The size check of `loadi`, `move`, `load` and `store`. -/

theorem checkWidth_ok (h : (sc, n) ∈ sizeWidths) : (width sc >>= fun _ => Except.ok ()) = .ok () := by
  rw [width_of_mem h, bind_ok]

theorem checkWidth_error (h : ∀ n, (sc, n) ∉ sizeWidths) :
    (width sc >>= fun _ => Except.ok ()) = .error { kind := .illegalSize } := by
  rw [width_eq_illegalSize h, bind_error]

theorem width_le_four (h : (sc, n) ∈ sizeWidths) : n ≤ 4 := by
  rcases width_eq_ok _ _ (width_of_mem h) with ⟨-, rfl⟩ | ⟨-, rfl⟩ | ⟨-, rfl⟩ <;> decide

end Refused

/-! ### move (42_data_movement.md R83) -/

/-- The copy of `n` bytes that `move` makes once it has its two addresses (`moveWith_eq_memCopy`). -/
def State.memCopy (s : State) (sa da : Addr) (n : Nat) : Except Cause State := do
  checkWritable da
  let v ← s.memRead sa n
  s.memWrite da n v

section Move

variable (s : State) {m m' : Config.MoveAddressing} {sc : SizeClass} {n : Nat} {sa da src dst src' dst' : Word}

theorem memCopy_protected (h : da.toNat < Config.ROMSIZE) :
    s.memCopy sa da n = .error { kind := .memoryProtection, addr := da } := by
  rw [State.memCopy, checkWritable_error da h, bind_error]

theorem memCopy_source_outside (hram : Config.ROMSIZE ≤ da.toNat) (hsrc : Config.MEMSIZE ≤ sa.toNat + n - 1) :
    s.memCopy sa da n = .error { kind := .address, addr := sa } := by
  rw [State.memCopy, checkWritable_ok da hram, bind_ok, memRead_error s sa n hsrc, bind_error]

theorem memCopy_inside (hram : Config.ROMSIZE ≤ da.toNat) (hsrc : sa.toNat + n - 1 < Config.MEMSIZE) :
    s.memCopy sa da n = s.memWrite da n (beNat (s.bytes sa.toNat n)) := by
  rw [State.memCopy, checkWritable_ok da hram, bind_ok, memRead_ok s sa n hsrc, bind_ok]

/-- `move` reads its setting and its fields through the two addresses alone. -/
theorem moveWith_congr (h : s.moveAddresses m src dst = s.moveAddresses m' src' dst') :
    moveWith m sc src dst s = moveWith m' sc src' dst' s := by
  rw [moveWith, h]
  rfl

theorem moveWith_eq_memCopy (hn : width sc = .ok n) (ha : s.moveAddresses m src dst = .ok (sa, da)) :
    moveWith m sc src dst s = s.finish (.move sc src dst) (s.memCopy sa da n) := by
  rw [moveWith, hn, ha]
  rfl

theorem exec_move_eq_memCopy (hn : width sc = .ok n) :
    exec (.move sc src dst) s = s.finish (.move sc src dst) (s.memCopy src dst n) :=
  moveWith_eq_memCopy s hn (moveAddresses_direct s src dst)

/-- Under `register_indirect`, `move` does what it does with the registers' values as its fields. -/
theorem moveWith_registerIndirect {i j : RegIdx} (hi : src.toNat % 256 = i.val) (hj : dst.toNat % 256 = j.val) :
    moveWith .registerIndirect sc src dst s = exec (.move sc (s.reg i) (s.reg j)) s :=
  moveWith_congr s <| moveAddresses_indirect s src dst i j ((regField_toNat src).trans hi)
    ((regField_toNat dst).trans hj)

end Move

/-- Settles O41: the written bytes are those of the number read before; the register fields are validated as in O12. -/
theorem moveCopiesTheOldSourceBytes : Obligations.MoveCopiesTheOldSourceBytes := by
  refine ⟨fun sc src dst => (decodeRecord_number _).trans (Record.decode_move sc src dst), fun s sc src dst => ?_⟩
  obtain ⟨hindirectSize, hindirectRegister⟩ := validationFaultsOnSizeThenRegister.2 s sc src dst
  refine ⟨fun hsc => exec_of_size (.move sc src dst) (checkWidth_error hsc) s, fun n hsc => ?_,
    hindirectSize, hindirectRegister, fun i j hi hj => moveWith_registerIndirect s hi hj⟩
  rw [exec_move_eq_memCopy s (width_of_mem hsc)]
  refine ⟨fun hrom => ?rom, fun hram hsrc => ?source, fun hram hsrc hdst => ?dest, fun hram hsrc hdst => ?copies⟩
  case rom => rw [memCopy_protected s hrom]; rfl
  case source => rw [memCopy_source_outside s hram hsrc]; rfl
  case dest => rw [memCopy_inside s hram hsrc, memWrite_outside s dst n _ hram hdst]; rfl
  case copies =>
    rw [memCopy_inside s hram hsrc, memWrite_eq_stored s _ hram hdst]
    exact ⟨_, rfl, rfl, fun k hk => (stored_byte_inside s _ hram hk).trans (byte_of_bytes s src.toNat n k hk),
      fun b => stored_byte_outside s _ hram⟩

/-! ### load and store (42_data_movement.md R84, R85) -/

section LoadStore

variable (s : State) {sc : SizeClass} {n : Nat} {a : Word}

theorem beNat_bytes_lt (b n : Nat) : beNat (s.bytes b n) < 256 ^ n := by
  simpa using beNat_lt (s.bytes b n)

/-- The number that at most four bytes stand for fits into a register, so it is zero-extended there. -/
theorem toNat_ofNat_bytes (hn : n ≤ 4) (b : Nat) :
    (BitVec.ofNat 32 (beNat (s.bytes b n))).toNat = beNat (s.bytes b n) := by
  have hlt := beNat_bytes_lt s b n
  have hpow : 256 ^ n ≤ 256 ^ 4 := Nat.pow_le_pow_right (by decide) hn
  exact Nat.mod_eq_of_lt (by omega)

/-- A load past the end of memory. -/
theorem exec_load_outside {rd : RegField} {d : RegIdx} (hn : width sc = .ok n) (hd : rd.toNat = d.val)
    (hout : Config.MEMSIZE ≤ a.toNat + n - 1) :
    exec (.load sc a rd) s = .next (s.raise { kind := .address, addr := a } 0x07) := by
  rw [exec, execLoad, hn, bind_ok, register_ok rd d hd, bind_ok, memRead_error s a n hout]
  rfl

/-- A store whose operands are valid ends as its write does. -/
theorem exec_store_eq_memWrite {rs : RegField} {i : RegIdx} (hn : width sc = .ok n) (hi : rs.toNat = i.val) :
    exec (.store sc rs a) s = s.finish (.store sc rs a) (s.memWrite a n (s.reg i).toNat) := by
  rw [exec, execStore, hn, bind_ok, register_ok rs i hi, bind_ok]

end LoadStore

/-- Settles O42. -/
theorem loadReadsBigEndianZeroExtended : Obligations.LoadReadsBigEndianZeroExtended := by
  refine ⟨fun sc src dst => (decodeRecord_number _).trans (Record.decode_load sc src dst), fun s sc addr rd =>
    ⟨fun n d hsc hd hin => ?loads, fun hsc => exec_of_size (.load sc addr rd) (checkWidth_error hsc) s,
      fun n hsc hrd => exec_of_register (.load sc addr rd) (checkWidth_ok hsc)
        ⟨rd, List.mem_singleton_self rd, hrd⟩ s,
      fun n hsc hrd hout => exec_load_outside s (width_of_mem hsc) (d := ⟨rd.toNat, hrd⟩) rfl hout⟩⟩
  case loads =>
    refine ⟨_, exec_load_ok (width_of_mem hsc) hd hin, ?_⟩
    rw [toNat_ofNat_bytes s (width_le_four hsc)]
    exact ⟨beNat_bytes_lt s addr.toNat n, byte_of_bytes s addr.toNat n⟩

/-- Settles O43. -/
theorem storeWritesTheLowBytesBigEndian : Obligations.StoreWritesTheLowBytesBigEndian := by
  refine ⟨fun sc src dst => (decodeRecord_number _).trans (Record.decode_store sc src dst), fun s sc rs addr =>
    ⟨fun n i hsc hi hram hin => ?stores, fun hsc => exec_of_size (.store sc rs addr) (checkWidth_error hsc) s,
      fun n hsc hrs => exec_of_register (.store sc rs addr) (checkWidth_ok hsc)
        ⟨rs, List.mem_singleton_self rs, hrs⟩ s,
      fun n hsc hrs hrom => ?rom, fun n hsc hrs hram hout => ?outside⟩⟩
  case stores =>
    exact ⟨_, exec_store_ok (width_of_mem hsc) hi hram hin, rfl,
      fun k => stored_byte_inside s (s.reg i).toNat hram, fun b => stored_byte_outside s (s.reg i).toNat hram⟩
  case rom =>
    rw [exec_store_eq_memWrite s (width_of_mem hsc) (i := ⟨rs.toNat, hrs⟩) rfl,
      memWrite_protected s addr n _ hrom]
    rfl
  case outside =>
    rw [exec_store_eq_memWrite s (width_of_mem hsc) (i := ⟨rs.toNat, hrs⟩) rfl,
      memWrite_outside s addr n _ hram hout]
    rfl

/-! ### The instructions between registers (42_data_movement.md R81, R82, R86, R87) -/

section Registers

variable (s : State) {rs rd : RegField} {i d : RegIdx}

theorem exec_loadi_ok {sc : SizeClass} {n : Nat} {lit : Word} (hn : width sc = .ok n) (hd : rd.toNat = d.val) :
    exec (.loadi sc lit rd) s = .next (s.setReg d (lit &&& mask n)) := by
  rw [exec, execLoadi, hn, bind_ok, register_ok rd d hd, bind_ok, finish_ok]

theorem exec_copy_ok (hi : rs.toNat = i.val) (hd : rd.toNat = d.val) :
    exec (.copy rs rd) s = .next (s.setReg d (s.reg i)) := by
  rw [exec, execCopy, register_ok rs i hi, bind_ok, register_ok rd d hd, bind_ok, finish_ok]

theorem exec_swap_ok (hd : rd.toNat = d.val) :
    exec (.swap rd) s = .next (s.setReg d ((s.reg d).extractLsb' 0 16 ++ (s.reg d).extractLsb' 16 16)) := by
  rw [exec, execSwap, register_ok rd d hd, bind_ok, finish_ok]

theorem exec_exchange_ok (hi : rs.toNat = i.val) (hd : rd.toNat = d.val) :
    exec (.exchange rs rd) s = .next ((s.setReg i (s.reg d)).setReg d (s.reg i)) := by
  rw [exec, execExchange, register_ok rs i hi, bind_ok, register_ok rd d hd, bind_ok, finish_ok]

/-- Some field of an instruction with two register fields names no register. -/
theorem illegal_field_of_or (h : 16 ≤ rs.toNat ∨ 16 ≤ rd.toNat) : ∃ f ∈ [rs, rd], 16 ≤ f.toNat := by
  simpa using h

end Registers

/-- The exchanged halves as a number. -/
theorem word_halves_exchanged (v : Word) :
    v.extractLsb' 0 16 ++ v.extractLsb' 16 16 = BitVec.ofNat 32 (v.toNat % 65536 * 65536 + v.toNat / 65536) := by
  have hv : v.toNat < 65536 * 65536 := v.isLt
  have hhigh : v.toNat / 65536 < 2 ^ 16 := Nat.div_lt_of_lt_mul hv
  apply BitVec.eq_of_toNat_eq
  calc (v.extractLsb' 0 16 ++ v.extractLsb' 16 16).toNat
      = (v.toNat % 65536) <<< 16 ||| v.toNat / 65536 := by
        refine (BitVec.toNat_append _ _).trans ?_
        rw [BitVec.extractLsb'_toNat, BitVec.extractLsb'_toNat, Nat.shiftRight_zero, Nat.shiftRight_eq_div_pow,
          Nat.mod_eq_of_lt hhigh]
    _ = v.toNat % 65536 * 65536 + v.toNat / 65536 := by
        rw [← Nat.shiftLeft_add_eq_or_of_lt hhigh, Nat.shiftLeft_eq]
    _ = (BitVec.ofNat 32 (v.toNat % 65536 * 65536 + v.toNat / 65536)).toNat := by
        exact (Nat.mod_eq_of_lt (by omega)).symm

/-- Settles O39. -/
theorem loadiWritesTheMaskedLiteral : Obligations.LoadiWritesTheMaskedLiteral := by
  refine ⟨fun sc src dst => (decodeRecord_number _).trans (Record.decode_loadi sc src dst), fun s sc lit rd =>
    ⟨fun n d hsc hd => ?writes, fun hsc => exec_of_size (.loadi sc lit rd) (checkWidth_error hsc) s,
      fun n hsc hrd => exec_of_register (.loadi sc lit rd) (checkWidth_ok hsc)
        ⟨rd, List.mem_singleton_self rd, hrd⟩ s⟩⟩
  case writes =>
    rw [exec_loadi_ok s (width_of_mem hsc) hd, and_mask lit n (width_le_four hsc), Nat.pow_mul]
    rfl

/-- Settles O40. -/
theorem copyWritesTheSourceRegister : Obligations.CopyWritesTheSourceRegister :=
  ⟨fun sc src dst => (decodeRecord_number _).trans (Record.decode_copy sc src dst), fun s rs rd =>
    ⟨fun _ _ => exec_copy_ok s, fun h => exec_of_register (.copy rs rd) rfl (illegal_field_of_or h) s⟩⟩

/-- Settles O44. -/
theorem swapExchangesTheHalves : Obligations.SwapExchangesTheHalves := by
  refine ⟨fun sc src dst => (decodeRecord_number _).trans (Record.decode_swap sc src dst), fun s rd =>
    ⟨fun d hd => ?swaps, fun h => exec_of_register (.swap rd) rfl ⟨rd, List.mem_singleton_self rd, h⟩ s⟩⟩
  case swaps =>
    rw [exec_swap_ok s hd, word_halves_exchanged]
    rfl

/-- Settles O45: the second write decides where the two registers are one, and it writes what is there. -/
theorem exchangeSwapsTheRegisters : Obligations.ExchangeSwapsTheRegisters := by
  refine ⟨fun sc src dst => (decodeRecord_number _).trans (Record.decode_exchange sc src dst), fun s rs rd =>
    ⟨fun i d hi hd => ⟨_, exec_exchange_ok s hi hd, rfl, ?source, ?dest, fun j hji hjd => ?frame⟩,
      fun h => exec_of_register (.exchange rs rd) rfl (illegal_field_of_or h) s⟩⟩
  case source =>
    change ((s.setReg i (s.reg d)).setReg d (s.reg i)).reg i = s.reg d
    by_cases hid : i = d
    · subst hid
      rw [setReg_reg, if_pos rfl]
    · rw [setReg_reg, if_neg hid, setReg_reg, if_pos rfl]
  case dest =>
    change ((s.setReg i (s.reg d)).setReg d (s.reg i)).reg d = s.reg i
    rw [setReg_reg, if_pos rfl]
  case frame =>
    change ((s.setReg i (s.reg d)).setReg d (s.reg i)).reg j = s.reg j
    rw [setReg_reg, if_neg hjd, setReg_reg, if_neg hji]

end Sys2Proof.Machine

/-! # Logical instructions (spec/43_logical.md): not, and, or, xor -/

namespace Sys2Proof.Machine

open Sys2Proof

/-! ### The combination of two registers that the four instructions share (43_logical.md R88 to R91) -/

section Combine

variable (s : State) {rs rd : RegField} {i d : RegIdx}

/-- With both registers in range the dest register gets the combined value; the source is read before the write, so
that `i = d` needs no case of its own. -/
theorem combine_ok (f : Word → Word → Word) (hi : rs.toNat = i.val) (hd : rd.toNat = d.val) :
    s.combine rs rd f = .ok (s.setReg d (f (s.reg i) (s.reg d))) := by
  rw [State.combine, register_ok rs i hi, bind_ok, register_ok rd d hd, bind_ok]

/-- Decision D12: the model's `not` is an exclusive or with zero, which is a copy and not a complement. -/
theorem exec_not_ok (hi : rs.toNat = i.val) (hd : rd.toNat = d.val) :
    exec (.not rs rd) s = .next (s.setReg d (s.reg i)) := by
  have hcopy : s.reg i ^^^ 0x00000000 = s.reg i := BitVec.xor_zero
  rw [exec, execNot, combine_ok s _ hi hd, finish_ok, hcopy]

theorem exec_and_ok (hi : rs.toNat = i.val) (hd : rd.toNat = d.val) :
    exec (.and rs rd) s = .next (s.setReg d (s.reg i &&& s.reg d)) := by
  rw [exec, execAnd, combine_ok s _ hi hd, finish_ok]

theorem exec_or_ok (hi : rs.toNat = i.val) (hd : rd.toNat = d.val) :
    exec (.or rs rd) s = .next (s.setReg d (s.reg i ||| s.reg d)) := by
  rw [exec, execOr, combine_ok s _ hi hd, finish_ok]

theorem exec_xor_ok (hi : rs.toNat = i.val) (hd : rd.toNat = d.val) :
    exec (.xor rs rd) s = .next (s.setReg d (s.reg i ^^^ s.reg d)) := by
  rw [exec, execXor, combine_ok s _ hi hd, finish_ok]

end Combine

/-- Settles O46. -/
theorem notCopiesTheSourceRegister : Obligations.NotCopiesTheSourceRegister :=
  ⟨fun sc src dst => (decodeRecord_number _).trans (Record.decode_not sc src dst), fun s rs rd =>
    ⟨fun _ _ => exec_not_ok s, fun h => exec_of_register (.not rs rd) rfl (illegal_field_of_or h) s⟩⟩

/-- Settles O47: the three instructions differ only in the function that combines the two values. -/
theorem andOrXorCombineBitByBit : Obligations.AndOrXorCombineBitByBit := by
  refine ⟨fun sc src dst => ⟨?decodeAnd, ?decodeOr, ?decodeXor⟩, fun s rs rd =>
    ⟨fun i d hi hd => ?inRange, fun h => ?fault⟩⟩
  case decodeAnd => exact (decodeRecord_number _).trans (Record.decode_and sc src dst)
  case decodeOr => exact (decodeRecord_number _).trans (Record.decode_or sc src dst)
  case decodeXor => exact (decodeRecord_number _).trans (Record.decode_xor sc src dst)
  case inRange => exact ⟨exec_and_ok s hi hd, exec_or_ok s hi hd, exec_xor_ok s hi hd⟩
  case fault =>
    have hf := illegal_field_of_or h
    exact ⟨exec_of_register (.and rs rd) rfl hf s, exec_of_register (.or rs rd) rfl hf s,
      exec_of_register (.xor rs rd) rfl hf s⟩

end Sys2Proof.Machine

/-! # Control transfer (spec/44_control_transfer.md): jump, jeqz, jnez -/

namespace Sys2Proof.Machine

open Sys2Proof

/-! ### The size class selects the form of the target field (44_control_transfer.md R92) -/

/-- The decoding of every instruction with a target field `f`, once `Record.decode` hands that field to `mk`. -/
theorem decodeRecord_target {op : Byte} {src dst f : Word} {mk : Target → Instr}
    (h : ∀ sc, (Record.mk op sc src dst).decode = .ok (mk (.ofField (.ofByte sc) f))) (sc : Byte) :
    decodeRecord (Record.mk op 0x00 src dst).number = .ok (mk (.register (regField f))) ∧
    decodeRecord (Record.mk op 0x05 src dst).number = .ok (mk (.literal f)) ∧
    (sc ≠ 0x00 → sc ≠ 0x05 →
      decodeRecord (Record.mk op sc src dst).number = .ok (mk (.unaccepted (SizeClass.ofByte sc) f))) := by
  refine ⟨?register, ?literal, fun hbyte hlong => ?unaccepted⟩
  case register => exact (decodeRecord_number _).trans (h 0x00)
  case literal => exact (decodeRecord_number _).trans (h 0x05)
  case unaccepted => rw [decodeRecord_number, h sc, Target.ofField_of_ne hbyte hlong]

/-! ### What a conditional jump does to `pc` (44_control_transfer.md R94, R95) -/

section Redirect

variable {s : State} {tg : Target} {a : Word} {rs : RegField} {i : RegIdx}

theorem exec_jeqz_pc (hi : rs.toNat = i.val) (ha : s.target tg = .ok a) :
    exec (.jeqz rs tg) s = .next { s with pc := if s.x[i] = 0 then a - 10 else s.pc } :=
  (exec_jeqz hi ha).trans
    (congrArg Host.Outcome.next (apply_ite (fun pc => ({ s with pc := pc } : State)) (s.reg i = 0) (a - 10) s.pc).symm)

theorem exec_jnez_pc (hi : rs.toNat = i.val) (ha : s.target tg = .ok a) :
    exec (.jnez rs tg) s = .next { s with pc := if s.x[i] = 0 then s.pc else a - 10 } :=
  (exec_jnez hi ha).trans
    (congrArg Host.Outcome.next (apply_ite (fun pc => ({ s with pc := pc } : State)) (s.reg i = 0) s.pc (a - 10)).symm)

end Redirect

/-- The faults of a conditional jump `j` with condition register `rs`: its checks read no register's value, so that they
fault whether or not the jump would be taken (decision D20). -/
theorem conditionalJump_faults {j : Target → Instr} {op : Byte} {rs : RegField} (s : State)
    (hop : ∀ t, (j t).opcode = op) (hsize : ∀ t, (j t).checkSize = accepted t)
    (hreg : ∀ t, (j t).registerFields = rs :: t.registerFields) :
    (∀ a : Word, 16 ≤ rs.toNat → exec (j (.literal a)) s = .next (s.withFault 0x06 op 0)) ∧
    (∀ r : RegField, 16 ≤ rs.toNat ∨ 16 ≤ r.toNat → exec (j (.register r)) s = .next (s.withFault 0x06 op 0)) ∧
    (∀ sc f, exec (j (.unaccepted sc f)) s = .next (s.withFault 0x05 op 0)) := by
  have register_fault (t : Target) (ht : accepted t = .ok ()) (h : ∃ f ∈ rs :: t.registerFields, 16 ≤ f.toNat) :
      exec (j t) s = .next (s.withFault 0x06 op 0) := by
    rw [exec_of_register (j t) ((hsize t).trans ht) (by rwa [hreg t]) s, hop t]
    rfl
  refine ⟨fun a hrs => ?literal, fun r h => ?register, fun sc f => ?unaccepted⟩
  case literal => exact register_fault (.literal a) rfl ⟨rs, List.mem_singleton_self rs, hrs⟩
  case register => exact register_fault (.register r) rfl (illegal_field_of_or h)
  case unaccepted =>
    rw [exec_of_size (j (.unaccepted sc f)) (hsize _) s, hop]
    rfl

/-- Settles O48. -/
theorem jumpWritesTargetMinusTen : Obligations.JumpWritesTargetMinusTen := by
  refine ⟨fun sc src dst => decodeRecord_target (fun c => Record.decode_jump c src dst) sc, fun s =>
    ⟨fun a => ?literal, fun r d hd => ?register, fun r hr => ?illegalRegister, fun sc f => ?illegalSize⟩⟩
  case literal => exact exec_jump (target_literal s a)
  case register => exact exec_jump (target_register s r d hd)
  case illegalRegister => exact exec_of_register (.jump (.register r)) rfl ⟨r, List.mem_singleton_self r, hr⟩ s
  case illegalSize => exact exec_of_size (.jump (.unaccepted sc f)) rfl s

/-- Settles O49. -/
theorem jeqzRedirectsOnlyOnZero : Obligations.JeqzRedirectsOnlyOnZero := by
  refine ⟨fun sc src dst => decodeRecord_target (fun c => Record.decode_jeqz c src dst) sc, fun s rs =>
    ⟨fun i a hi => ?literal, fun i d r hi hd => ?register, ?faults⟩⟩
  case literal => exact exec_jeqz_pc hi (target_literal s a)
  case register => exact exec_jeqz_pc hi (target_register s r d hd)
  case faults => exact conditionalJump_faults s (j := .jeqz rs) (fun _ => rfl) (fun _ => rfl) (fun _ => rfl)

/-- Settles O50. -/
theorem jnezRedirectsUnlessZero : Obligations.JnezRedirectsUnlessZero := by
  refine ⟨fun sc src dst => decodeRecord_target (fun c => Record.decode_jnez c src dst) sc, fun s rs =>
    ⟨fun i a hi => ?literal, fun i d r hi hd => ?register, ?faults⟩⟩
  case literal => exact exec_jnez_pc hi (target_literal s a)
  case register => exact exec_jnez_pc hi (target_register s r d hd)
  case faults => exact conditionalJump_faults s (j := .jnez rs) (fun _ => rfl) (fun _ => rfl) (fun _ => rfl)

end Sys2Proof.Machine

/-! # Diagnostic instructions (spec/45_diagnostic.md): debug, diagnop -/

namespace Sys2Proof.Machine

open Sys2Proof

/-- The step's pre-advance is no part of `exec`, so that nothing is left for the instruction to do (R98). -/
@[simp] theorem exec_diagnop (s : State) : exec .diagnop s = .next s := rfl

/-- Settles O36. -/
theorem diagnopChangesNothing : Obligations.DiagnopChangesNothing :=
  ⟨fun sc src dst => (decodeRecord_number _).trans (Record.decode_diagnop sc src dst), exec_diagnop⟩

/-- Settles O52: the register field is validated before anything is emitted, so that its fault leaves the sink. -/
theorem debugAppendsTheRegister : Obligations.DebugAppendsTheRegister := by
  refine ⟨fun sc src dst => ?decode, fun s rd => ⟨fun d hd => ?appends, fun hrd => ?fault⟩⟩
  case decode => exact (decodeRecord_number _).trans (Record.decode_debug sc src dst)
  case appends => exact exec_debug_ok (register_ok rd d hd) s
  case fault => exact exec_of_register (.debug rd) rfl ⟨rd, List.mem_singleton_self rd, hrd⟩ s

end Sys2Proof.Machine

/-! # Exceptions (spec/60_exceptions.md): a fetch past memory, and what a step that faults leaves -/

namespace Sys2Proof.Machine

open Sys2Proof

/-! ### A fetch past memory (60_exceptions.md R104, decision D8) -/

theorem fetchInstr_outside {p : Config.Params} {s : State} (h : Config.MEMSIZE ≤ s.pc.toNat + 9) :
    s.fetchInstr p = .error ({ kind := .address, addr := s.pc }, 0x00) := by
  rw [State.fetchInstr, fetch_error s h]

/-- Settles O8. -/
theorem fetchPastMemoryTakesAddressFault : Obligations.FetchPastMemoryTakesAddressFault :=
  fun s hr hout => stepRunning_of_fault ((stopped_eq_false s).2 hr) (fetchInstr_outside (s := s.preAdvance) hout)

/-! ### The address of a fault (60_exceptions.md R100) -/

theorem code_eq_memoryProtection {k : Fault} : k.code = 0x01 ↔ k = .memoryProtection := by cases k <;> decide

theorem code_eq_address {k : Fault} : k.code = 0x04 ↔ k = .address := by cases k <;> decide

/-- The pre-advance moves no address that an instruction stores to: none depends on `pc`. -/
@[simp] theorem storesTo_preAdvance (i : Instr) (s : State) (m : Config.MoveAddressing) :
    storesTo i s.preAdvance m = storesTo i s m := by
  cases i <;> rfl

/-- The pre-advance moves no address that an instruction loads from: none depends on `pc`. -/
@[simp] theorem loadsFrom_preAdvance (i : Instr) (s : State) (m : Config.MoveAddressing) :
    loadsFrom i s.preAdvance m = loadsFrom i s m := by
  cases i <;> rfl

/-- The ten bytes of a fetched record decode as its number does. -/
theorem decode_of_fetch {p : Config.Params} {s : State} {rec : RecordWord} {i : Instr}
    (hin : s.pc.toNat + 9 < Config.MEMSIZE) (hf : s.fetch = .ok rec) (hd : decodeRecord rec p = .ok i) :
    decode (s.bytes s.pc.toNat 10) p = .ok i := by
  rw [fetch_ok s hin] at hf
  cases hf
  have hlen : (s.bytes s.pc.toNat 10).length = Config.RECORD_SIZE := length_bytes s _ _
  rw [decode, if_neg (by omega), List.take_of_length_le hlen.le, hd]

/-! ### The fault that a step raises (60_exceptions.md R108) -/

/-- What R100 and R108 ask of the kind, the address and the opcode byte of a fault that the next step of `s` raises. -/
structure FaultOfStep (s : State) (k : Fault) (a : Word) (op : Byte) : Prop where
  opcode : op = if (s.pc + 10).toNat + 10 ≤ Config.MEMSIZE then s.byte (s.pc + 10).toNat else 0x00
  protection : k = .memoryProtection →
    ∃ i sc, decode (s.bytes (s.pc + 10).toNat 10) = .ok i ∧ storesTo i s = some (a, sc)
  address : k = .address →
    (Config.MEMSIZE < (s.pc + 10).toNat + 10 ∧ a = s.pc + 10) ∨
    ∃ i sc, decode (s.bytes (s.pc + 10).toNat 10) = .ok i ∧
      (storesTo i s = some (a, sc) ∨ loadsFrom i s = some (a, sc))
  noAddress : k ≠ .memoryProtection → k ≠ .address → a = 0

/-- Of the effects of an instruction only `faults` writes the fault record. -/
theorem Effect.raises_of_kind {m : Config.MoveAddressing} {i : Instr} {s t : State} (h : Effect m i s t)
    (hs : s.fault.FAULT_KIND = 0x00) (ht : t.fault.FAULT_KIND ≠ 0x00) :
    ∃ k a, t = s.raise ⟨k, a⟩ i.opcode ∧ (k ≠ .memoryProtection → k ≠ .address → a = 0) ∧
      (k = .memoryProtection → ∃ sc, storesTo i s m = some (a, sc)) ∧
      (k = .address → ∃ sc, storesTo i s m = some (a, sc) ∨ loadsFrom i s m = some (a, sc)) := by
  cases h with
  | faults k a _ h0 h1 h4 => exact ⟨k, a, rfl, h0, h1, h4⟩
  | _ => exact absurd hs ht

/-- A running core's step that leaves a fault has only pre-advanced and raised it, by the cases of a step. -/
theorem step_raises {s t : State} (hr : s.Running) (h : step s = .next t) (ht : t.fault.FAULT_KIND ≠ 0x00) :
    ∃ k a op, t = s.preAdvance.raise ⟨k, a⟩ op ∧ FaultOfStep s k a op := by
  cases step_cases h with
  | inert => exact absurd hr.2 ht
  | fetchFault _ hout =>
    exact ⟨_, _, _, rfl, (if_neg (by omega)).symm, by simp, fun _ => .inl ⟨by omega, rfl⟩, by simp⟩
  | unknown _ hin _ _ _ _ hop =>
    exact ⟨_, _, _, rfl, hop.trans (if_pos (by omega)).symm, by simp, by simp, fun _ _ => rfl⟩
  | runs _ hin rec i _ hf hd hop hnext =>
    have hdec : decode (s.bytes (s.pc + 10).toNat 10) = .ok i := by
      simpa using decode_of_fetch (s := s.preAdvance) (by simpa using hin) hf hd
    obtain ⟨k, a, rfl, h0, h1, h4⟩ := (exec_cases i _ t hnext).raises_of_kind hr.2 ht
    simp only [storesTo_preAdvance, loadsFrom_preAdvance] at h1 h4
    refine ⟨k, a, _, rfl, hop.trans (if_pos (by omega)).symm, fun hk => ?_, fun hk => .inr ?_, h0⟩
    · obtain ⟨sc, hs⟩ := h1 hk
      exact ⟨i, sc, hdec, hs⟩
    · obtain ⟨sc, hs⟩ := h4 hk
      exact ⟨i, sc, hdec, hs⟩

/-- Settles O11: the fault record is the one that `raise` writes, and a core that holds one is stopped. -/
theorem faultsArePreciseAndFatal : Obligations.FaultsArePreciseAndFatal := by
  intro s t hr h ht
  obtain ⟨k, a, op, rfl, hfault⟩ := step_raises hr h ht
  obtain ⟨hinert, hreport⟩ := stoppedCoreIsInert _ (.inr ht)
  exact ⟨rfl, rfl, hfault.opcode, code_toNat_le k, fun hk => hfault.protection (code_eq_memoryProtection.1 hk),
    fun hk => hfault.address (code_eq_address.1 hk),
    fun h1 h4 => hfault.noAddress (mt code_eq_memoryProtection.2 h1) (mt code_eq_address.2 h4),
    hreport.trans (if_neg (by simp [hr.1])), hinert⟩

end Sys2Proof.Machine

/-! # Reset and hazards (spec/70_reset_and_hazards.md): the first step after reset; the sample words of
spec/95_test_vectors.md -/

namespace Sys2Proof.Machine

open Sys2Proof

/-! ### The record at address 0 (70_reset_and_hazards.md R123) -/

/-- Fewer bytes than a record decode to no instruction. -/
theorem recordSize_le_of_decode {p : Config.Params} {bs : List Byte} {i : Instr} (h : decode bs p = .ok i) :
    Config.RECORD_SIZE ≤ bs.length := by
  by_contra hlt
  rw [decode, if_pos (Nat.lt_of_not_le hlt)] at h
  cases h

/-- The decoder reads no byte past the first record (30_encoding.md R47). -/
theorem decode_take {p : Config.Params} {bs : List Byte} (hlen : Config.RECORD_SIZE ≤ bs.length) :
    decode (bs.take Config.RECORD_SIZE) p = decode bs p := by
  simp only [decode, List.take_take, List.length_take_of_le hlen, Nat.min_self, if_neg (Nat.lt_irrefl _),
    if_neg (Nat.not_lt.2 hlen)]

section FirstStep

variable {c : Config.Open} {image : List Byte} {s : State}

theorem resetWith_running (h : resetWith c image = some s) : s.Running :=
  ⟨resetWith_halted h, by rw [resetWith_fault h]; rfl⟩

/-- `PC_RESET` is ten below 0, so that the first pre-advance wraps to address 0 (10_state.md R26). -/
theorem resetWith_pc_add_ten (hc : c.PC_RESET = Config.PC_RESET) (h : resetWith c image = some s) : s.pc + 10 = 0 := by
  rw [resetWith_pc h, hc]
  decide

theorem resetWith_preAdvance (hc : c.PC_RESET = Config.PC_RESET) (h : resetWith c image = some s) :
    s.preAdvance = { s with pc := 0 } :=
  congrArg (fun a => { s with pc := a }) (resetWith_pc_add_ten hc h)

/-- An image is placed from address 0 on. -/
theorem resetWith_bytes (h : resetWith c image = some s) {n : Nat} (hn : n ≤ image.length) :
    s.bytes 0 n = image.take n := by
  obtain ⟨hrom, -⟩ := resetWith_eq_some.1 h
  refine List.ext_getElem (by simp [hn]) fun k hk _ => ?_
  rw [length_bytes] at hk
  rw [bytes_getElem, Nat.zero_add, resetWith_byte_rom h (by omega), List.getD_eq_getElem _ _ (by omega),
    List.getElem_take]

end FirstStep

/-- Settles O3: the first pre-advance wraps to address 0, where reset placed the image's first record. -/
theorem firstStepRunsTheRecordAtAddressZero : Obligations.FirstStepRunsTheRecordAtAddressZero := by
  intro c image s i hc h hdec
  have hlen := recordSize_le_of_decode hdec
  have hpc := resetWith_pc_add_ten hc h
  have hrec : decode (s.bytes (s.pc + 10).toNat 10) = .ok i := by
    rw [hpc]
    exact (congrArg decode (resetWith_bytes h hlen)).trans ((decode_take hlen).trans hdec)
  have hin : (s.pc + 10).toNat + 10 ≤ Config.MEMSIZE := by
    rw [hpc]
    decide
  rw [← resetWith_preAdvance hc h]
  exact stepRunning_of_decode (resetWith_running h) hin hrec

/-! ### Sample words (95_test_vectors.md W1, W2, W3, V-AR-3, V-DM-16, V-LG-3, V-DG-4, V-SEQ-3) -/

/-- A word is decoded by the fields it is written from. -/
theorem decodeRecord_of_number {p : Config.Params} {rec : RecordWord} (r : Record) (h : r.number = rec) :
    decodeRecord rec p = r.decode p :=
  h ▸ decodeRecord_number r

/-- Settles O28: each word is the number of the record whose four fields are written out here. -/
theorem sampleWordsDecode : Obligations.SampleWordsDecode := by
  refine ⟨?hcf, ?add, ?jump, ?loadi, ?store, ?and, ?diagnop, ?unknown⟩
  case hcf => exact decodeRecord_of_number ⟨0x00, 0x00, 0x00000000, 0x00000000⟩ rfl
  case add => exact decodeRecord_of_number ⟨0x01, 0x99, 0xFFFFFFFF, 0xFFFFFFFF⟩ rfl
  case jump => exact decodeRecord_of_number ⟨0x0F, 0x05, 0x0000000A, 0x00000000⟩ rfl
  case loadi => exact decodeRecord_of_number ⟨0x05, 0x00, 0x0000002A, 0x00000003⟩ rfl
  case store => exact decodeRecord_of_number ⟨0x08, 0x02, 0x00000005, 0x00200000⟩ rfl
  case and => exact decodeRecord_of_number ⟨0x0C, 0x00, 0x00000001, 0x00000002⟩ rfl
  case diagnop => exact decodeRecord_of_number ⟨0xFF, 0x12, 0x3456789A, 0xBCDEF011⟩ rfl
  case unknown => exact decodeRecord_of_number ⟨0x14, 0x00, 0x00000000, 0x00000000⟩ rfl

end Sys2Proof.Machine
